-- ==== Sys2Proof/Word.lean ====
section
/-! DEFINITION. The word types of the machine (spec 00_scope.md R6, R7): one 16-bit word is the unit of
everything a program can name, and the fields of an instruction word have these widths. -/

namespace Sys2Proof

/-- A 16-bit word: W, INDA, pc, a cell of either memory, an instruction (R6, R50). -/
abbrev Word := BitVec 16

/-- The 11-bit literal field of an instruction word (R81). -/
abbrev Lit := BitVec 11

/-- The 4-bit instruction code `Instr_code` (R82). -/
abbrev Code := BitVec 4

/-- The single Dest bit of an instruction word (R82). -/
abbrev DestBit := BitVec 1

end Sys2Proof
end

