-- ==== Sys2Proof/Syntax.lean ====
section
/-! DEFINITION. The instructions: one constructor for each of the 24 rows of spec/opcode_table.json
(30_encoding.md R84, R85). A name ending in W sends the result to W (Dest = 0); one ending in M writes it
back to the mem/reg operand (Dest = 1). -/

namespace Sys2Proof

/-- An instruction. `lit` is the 11-bit literal (R83). Fields named `dest` or `ign` are bits the hardware
ignores (R85, R87); they are kept so that encoding a decoded word gives the word back, as R87 asks. -/
inductive Instr where
  /-- `mm <addr>,w` (R140) -/
  | mmW (lit : Lit)
  /-- `mm <addr>,m` (R141) -/
  | mmM (lit : Lit)
  /-- `mwm <addr>` (R142) -/
  | mwm (dest : DestBit) (lit : Lit)
  /-- `mlw <value>` (R143) -/
  | mlw (dest : DestBit) (lit : Lit)
  /-- `rlm <addr>,w` (R150) -/
  | rlmW (lit : Lit)
  /-- `rlm <addr>,m` (R150) -/
  | rlmM (lit : Lit)
  /-- `rrm <addr>,w` (R151) -/
  | rrmW (lit : Lit)
  /-- `rrm <addr>,m` (R151) -/
  | rrmM (lit : Lit)
  /-- `awm <addr>,w` (R160) -/
  | awmW (lit : Lit)
  /-- `awm <addr>,m` (R160) -/
  | awmM (lit : Lit)
  /-- `owm <addr>,w` (R161) -/
  | owmW (lit : Lit)
  /-- `owm <addr>,m` (R161) -/
  | owmM (lit : Lit)
  /-- `xwm <addr>,w` (R162) -/
  | xwmW (lit : Lit)
  /-- `xwm <addr>,m` (R162) -/
  | xwmM (lit : Lit)
  /-- `add <addr>,w` (R170) -/
  | addW (lit : Lit)
  /-- `add <addr>,m` (R170) -/
  | addM (lit : Lit)
  /-- `sub <addr>,w` (R171) -/
  | subW (lit : Lit)
  /-- `sub <addr>,m` (R171) -/
  | subM (lit : Lit)
  /-- `sms <addr>` (R180) -/
  | sms (dest : DestBit) (lit : Lit)
  /-- `smc <addr>` (R181) -/
  | smc (dest : DestBit) (lit : Lit)
  /-- `gol <target>` (R190) -/
  | gol (dest : DestBit) (lit : Lit)
  /-- `gow` (R191) -/
  | gow (dest : DestBit) (ign : Lit)
  /-- `wfi` (R200) -/
  | wfi (dest : DestBit) (ign : Lit)
  /-- `rfi` (R201) -/
  | rfi (dest : DestBit) (ign : Lit)
  deriving DecidableEq, Repr

end Sys2Proof
end

