-- ==== Sys2Proof/WellFormed.lean ====
section
/-! DEFINITION. The canonical form of an instruction: the one an assembler emits (30_encoding.md R85, R87).
The fields' types already bound every operand, and every word decodes and runs (R86), so this is the only
check there is: ignored bits are zero. The machine runs instructions that fail it as well (R87). -/

namespace Sys2Proof

/-- Ignored bits hold the assembler's default 0 (R85: "x (0)"; R87 for the literal of gow, wfi, rfi). -/
def Instr.wellFormed : Instr → Bool
  | .mmW _ | .mmM _ => true
  | .rlmW _ | .rlmM _ | .rrmW _ | .rrmM _ => true
  | .awmW _ | .awmM _ | .owmW _ | .owmM _ | .xwmW _ | .xwmM _ => true
  | .addW _ | .addM _ | .subW _ | .subM _ => true
  | .mwm dest _ | .mlw dest _ | .sms dest _ | .smc dest _ | .gol dest _ => dest == 0#1
  | .gow dest ign | .wfi dest ign | .rfi dest ign => dest == 0#1 && ign == 0#11

end Sys2Proof
end

