-- ==== Sys2Proof/Decode.lean ====
section
/-! DEFINITION. Reading an instruction word and writing one (30_encoding.md R81 to R87), and the opcode
table as mask and match. Decoding is total: there is no illegal word (R86), so nothing is rejected. -/

namespace Sys2Proof

/-- `Instr_code = insn[15:12]` (R82). -/
def insnCode (w : Word) : Code := w.extractLsb' 12 4

/-- `Dest = insn[11]` (R82). -/
def insnDest (w : Word) : DestBit := w.extractLsb' 11 1

/-- `Literal = insn[10:0]` (R81). -/
def insnLit (w : Word) : Lit := w.extractLsb' 0 11

/-- The two variants of an instruction with a meaningful Dest bit: 0 is W, 1 is M (R85). -/
def byDest (dest : DestBit) (toW toM : Instr) : Instr := if dest = 0#1 then toW else toM

/-- The opcode map of R84. -/
def decodeFields (code : Code) (dest : DestBit) (lit : Lit) : Instr :=
  match code with
  | 0x0#4 => byDest dest (.mmW lit) (.mmM lit)
  | 0x1#4 => .mwm dest lit
  | 0x2#4 => .mlw dest lit
  | 0x3#4 => byDest dest (.rlmW lit) (.rlmM lit)
  | 0x4#4 => byDest dest (.rrmW lit) (.rrmM lit)
  | 0x5#4 => byDest dest (.awmW lit) (.awmM lit)
  | 0x6#4 => byDest dest (.owmW lit) (.owmM lit)
  | 0x7#4 => byDest dest (.xwmW lit) (.xwmM lit)
  | 0x8#4 => byDest dest (.addW lit) (.addM lit)
  | 0x9#4 => byDest dest (.subW lit) (.subM lit)
  | 0xA#4 => .sms dest lit
  | 0xB#4 => .smc dest lit
  | 0xC#4 => .gol dest lit
  | 0xD#4 => .gow dest lit
  | 0xE#4 => .wfi dest lit
  | _ => .rfi dest lit

/-- The decoder of R84: every word is exactly one instruction (R86). -/
def decode (w : Word) : Instr := decodeFields (insnCode w) (insnDest w) (insnLit w)

/-- `insn = (code << 12) | (dest << 11) | lit` (R82), written as the three fields side by side. -/
def packWord (code : Code) (dest : DestBit) (lit : Lit) : Word := code ++ dest ++ lit

/-- The encoding of an instruction (R82, R84). -/
def encode : Instr → Word
  | .mmW lit => packWord 0x0 0 lit
  | .mmM lit => packWord 0x0 1 lit
  | .mwm dest lit => packWord 0x1 dest lit
  | .mlw dest lit => packWord 0x2 dest lit
  | .rlmW lit => packWord 0x3 0 lit
  | .rlmM lit => packWord 0x3 1 lit
  | .rrmW lit => packWord 0x4 0 lit
  | .rrmM lit => packWord 0x4 1 lit
  | .awmW lit => packWord 0x5 0 lit
  | .awmM lit => packWord 0x5 1 lit
  | .owmW lit => packWord 0x6 0 lit
  | .owmM lit => packWord 0x6 1 lit
  | .xwmW lit => packWord 0x7 0 lit
  | .xwmM lit => packWord 0x7 1 lit
  | .addW lit => packWord 0x8 0 lit
  | .addM lit => packWord 0x8 1 lit
  | .subW lit => packWord 0x9 0 lit
  | .subM lit => packWord 0x9 1 lit
  | .sms dest lit => packWord 0xA dest lit
  | .smc dest lit => packWord 0xB dest lit
  | .gol dest lit => packWord 0xC dest lit
  | .gow dest ign => packWord 0xD dest ign
  | .wfi dest ign => packWord 0xE dest ign
  | .rfi dest ign => packWord 0xF dest ign

/-- A row of the opcode table: a word `w` is the row's instruction when `w &&& mask = pattern` (R84). -/
structure OpRow where
  mnemonic : String
  /-- 0 or 1 where the Dest bit selects the row, `none` where it is ignored. -/
  dest : Option DestBit
  pattern : Word
  mask : Word
  deriving DecidableEq, Repr

/-- The table of R84, the rows with a meaningful Dest bit first. -/
def opTable : List OpRow :=
  [ ⟨"mm", some 0, 0x0000, 0xF800⟩, ⟨"mm", some 1, 0x0800, 0xF800⟩,
    ⟨"rlm", some 0, 0x3000, 0xF800⟩, ⟨"rlm", some 1, 0x3800, 0xF800⟩,
    ⟨"rrm", some 0, 0x4000, 0xF800⟩, ⟨"rrm", some 1, 0x4800, 0xF800⟩,
    ⟨"awm", some 0, 0x5000, 0xF800⟩, ⟨"awm", some 1, 0x5800, 0xF800⟩ ] ++
  [ ⟨"owm", some 0, 0x6000, 0xF800⟩, ⟨"owm", some 1, 0x6800, 0xF800⟩,
    ⟨"xwm", some 0, 0x7000, 0xF800⟩, ⟨"xwm", some 1, 0x7800, 0xF800⟩,
    ⟨"add", some 0, 0x8000, 0xF800⟩, ⟨"add", some 1, 0x8800, 0xF800⟩,
    ⟨"sub", some 0, 0x9000, 0xF800⟩, ⟨"sub", some 1, 0x9800, 0xF800⟩ ] ++
  [ ⟨"mwm", none, 0x1000, 0xF000⟩, ⟨"mlw", none, 0x2000, 0xF000⟩,
    ⟨"sms", none, 0xA000, 0xF000⟩, ⟨"smc", none, 0xB000, 0xF000⟩,
    ⟨"gol", none, 0xC000, 0xF000⟩, ⟨"gow", none, 0xD000, 0xF000⟩,
    ⟨"wfi", none, 0xE000, 0xF000⟩, ⟨"rfi", none, 0xF000, 0xF000⟩ ]

/-- The row an instruction stands in (R84). -/
def Instr.row : Instr → OpRow
  | .mmW _ => ⟨"mm", some 0, 0x0000, 0xF800⟩
  | .mmM _ => ⟨"mm", some 1, 0x0800, 0xF800⟩
  | .mwm _ _ => ⟨"mwm", none, 0x1000, 0xF000⟩
  | .mlw _ _ => ⟨"mlw", none, 0x2000, 0xF000⟩
  | .rlmW _ => ⟨"rlm", some 0, 0x3000, 0xF800⟩
  | .rlmM _ => ⟨"rlm", some 1, 0x3800, 0xF800⟩
  | .rrmW _ => ⟨"rrm", some 0, 0x4000, 0xF800⟩
  | .rrmM _ => ⟨"rrm", some 1, 0x4800, 0xF800⟩
  | .awmW _ => ⟨"awm", some 0, 0x5000, 0xF800⟩
  | .awmM _ => ⟨"awm", some 1, 0x5800, 0xF800⟩
  | .owmW _ => ⟨"owm", some 0, 0x6000, 0xF800⟩
  | .owmM _ => ⟨"owm", some 1, 0x6800, 0xF800⟩
  | .xwmW _ => ⟨"xwm", some 0, 0x7000, 0xF800⟩
  | .xwmM _ => ⟨"xwm", some 1, 0x7800, 0xF800⟩
  | .addW _ => ⟨"add", some 0, 0x8000, 0xF800⟩
  | .addM _ => ⟨"add", some 1, 0x8800, 0xF800⟩
  | .subW _ => ⟨"sub", some 0, 0x9000, 0xF800⟩
  | .subM _ => ⟨"sub", some 1, 0x9800, 0xF800⟩
  | .sms _ _ => ⟨"sms", none, 0xA000, 0xF000⟩
  | .smc _ _ => ⟨"smc", none, 0xB000, 0xF000⟩
  | .gol _ _ => ⟨"gol", none, 0xC000, 0xF000⟩
  | .gow _ _ => ⟨"gow", none, 0xD000, 0xF000⟩
  | .wfi _ _ => ⟨"wfi", none, 0xE000, 0xF000⟩
  | .rfi _ _ => ⟨"rfi", none, 0xF000, 0xF000⟩

/-- The instruction read from a word whose bits are `w`, numbered as the opcode table numbers them. An
instruction is one 16-bit word (R80), so at most 16 bits can be given and the bits above `nbits` are 0
(log 14). -/
def decodeTableWord (nbits w : Nat) : Option Instr :=
  if nbits ≤ 16 then some (decode (BitVec.ofNat 16 (w % 2 ^ nbits))) else none

end Sys2Proof
end

