-- ==== Sys2Proof/Config.lean ====
section
/-! DEFINITION. The open parameters of the spec that are plain values (00_scope.md R6,
92_eei_decisions.md "Open parameters"). A state carries them unchanged, so a statement over all states
holds for every setting. IntSource and IntEntry are the state's `intSource`. -/

namespace Sys2Proof

structure Config where
  /-- The last address of program memory, PROG_WORDS - 1 (D1, R31). Holding the address and not the number
  keeps `1 <= PROG_WORDS <= 65536` (R6) by construction (log 5). -/
  lastProg : Word
  /-- RESET_PC: the pc at launch (D13, R240; log 6). -/
  resetPc : Word
  /-- INDV_REACHES_REGS: whether an access through Indv with INDA at 0x0200, 0x0201, 0x0202 or 0x0204
  reaches that register (D7, R56; log 7). -/
  indvReachesRegs : Bool
  deriving DecidableEq, Repr

/-- PROG_WORDS: the number of words of program memory (R6, R31). -/
def Config.progWords (c : Config) : Nat := c.lastProg.toNat + 1

/-- The defaults of R6: RESET_PC = 0x0000, INDV_REACHES_REGS = false. PROG_WORDS has no default in the spec; 1024
is the most it recommends (D1) and what its vectors use: DESIGN CHOICE (log 5). -/
def Config.standard : Config := { lastProg := 0x03FF, resetPc := 0x0000, indvReachesRegs := false }

/-- What taking one interrupt does: the result of the open parameter IntEntry at that event
(60_exceptions.md R215). By R215 (b) it sets `pc` and perhaps `spc`, ends a wait, and touches nothing
else. DESIGN CHOICE, safe (log 9): the event carries IntEntry's result, so every IntEntry is covered and
none of the spec's candidates is assumed. -/
structure IntEntry where
  /-- Where the first handler instruction is fetched. -/
  pc : Word
  /-- The saved pc after entry (the old `spc` where the platform's entry does not write it). -/
  spc : Word
  deriving DecidableEq, Repr

end Sys2Proof
end

