-- ==== Sys2Proof/Machine/State.lean ====
section
/-! DEFINITION. The state of the machine (10_state.md R20), its faults, and the state at launch and after
reset (10_state.md R34, 70_reset_and_hazards.md R240, R246). -/

namespace Sys2Proof.Machine

/-- A word of memory with its address. The machine addresses 16-bit words only (20_memory.md R50), so a
cell holds a word and no byte order is invented (log 4). -/
abbrev Cell := Nat × Word

/-- A memory, data RAM or program memory: the words that hold a value, by strictly rising address
(`Memory.wfIn`). -/
abbrev Memory := List Cell

/-- The words of a list, at consecutive addresses from `a` on. -/
def Memory.ofWords : Nat → List Word → Memory
  | _, [] => []
  | a, w :: ws => (a, w) :: Memory.ofWords (a + 1) ws

/-- The complete architectural state of R20, and three fields of the model's own (`cfg`, `pcPastTop`, `intSource`). -/
structure State where
  /-- The open parameters, fixed during a run (00_scope.md R6). -/
  cfg : Config
  /-- W, the working register, data address 0x0200 (R21). -/
  w : Word
  /-- C, the Carry flag, bit 0 of data address 0x0201 (R22). -/
  carry : Bool
  /-- Z, the Zero flag, bit 0 of data address 0x0202 (R23). -/
  zero : Bool
  /-- INDA, the indirect address, data address 0x0204 (R24). -/
  inda : Word
  /-- The program counter (R26). -/
  pc : Word
  /-- Whether the sum that gave `pc` passed 0xFFFF with PROG_WORDS below 65536, so that the next fetch faults and
  not goes on at the wrapped `pc` (R27, D21). The model's own field: `pc` has no bit for it (log 16). -/
  pcPastTop : Bool
  /-- spc, the saved program counter (R28). -/
  spc : Word
  /-- Whether the core is halted in `wfi` (R29). -/
  waiting : Bool
  /-- Data RAM, 0x0000 to 0x01FF (R30). -/
  ram : Memory
  /-- Program memory, 0 to PROG_WORDS - 1: the words that a launch has supplied (R31, R246, log 5). -/
  prog : Memory
  /-- What IntSource delivers at the coming instruction boundaries, the next one first: `none` for no
  event, `some e` for an event whose IntEntry gives `e`; after the list, nothing (R213, R215, log 9). -/
  intSource : List (Option IntEntry)
  deriving DecidableEq, Repr

/-- The spec's model faults (60_exceptions.md R211): the edge of what the spec defines. Each is safe: the
model stops where a chip may go on. A fault changes no state (40_alu_datapath.md R125). -/
inductive Fault where
  /-- `pc >= PROG_WORDS` at fetch, or a `pc` whose sum passed the top of program memory and wrapped (R27, D21);
  raised by the step (R61). Safe. -/
  | fetchOutOfRange
  /-- A direct data address in 0x0205..0x07FF; raised by every instruction with a mem/reg operand (R57). Safe. -/
  | unmappedData
  /-- An access to 0x0203 whose INDA names nothing it may reach; raised by the same instructions (R55, R56). Safe. -/
  | indirectTarget
  /-- A Dest = 1 write to a flag the same instruction affects; raised by the eight ALU instructions (R68). Safe. -/
  | statusWriteConflict
  /-- A read of a RAM word that nothing has written, raised by every instruction that reads its operand (R52,
  log 3), or a fetch of a program word inside PROG_WORDS that no launch has supplied, raised by the step
  (R8, log 5). Safe. -/
  | unwrittenRead
  deriving DecidableEq, Repr

/-- Why a step has no meaning. Every instruction has one, so no step answers this. -/
inductive Refusal where
  /-- An instruction without a meaning yet; raised by an arm of `exec` only (none does). Safe. -/
  | notModelled (mnemonic : String)
  deriving DecidableEq, Repr

/-- What the host supplies at launch (70_reset_and_hazards.md R246): the program, and optionally RAM words and
initial values of W, C, Z, INDA and spc. The open parameters of R6, IntSource among them, are supplied with
it; their defaults are the spec's. -/
structure Launch where
  cfg : Config := Config.standard
  /-- The program, from address 0 on; a launch as R246 has it supplies all PROG_WORDS words. -/
  prog : List Word
  /-- The RAM words supplied, in canonical form (`Memory.wf`). -/
  ram : Memory := []
  w : Option Word := none
  carry : Option Bool := none
  zero : Option Bool := none
  inda : Option Word := none
  spc : Option Word := none
  /-- What IntSource will deliver; by default it never delivers an event (R213). -/
  intSource : List (Option IntEntry) := []
  deriving DecidableEq, Repr

/-- The launch state of R246: what is supplied, with `pc = RESET_PC` and `waiting = false`. A register that is
not supplied holds zero, which is the model's choice where the spec says "unwritten" (DESIGN CHOICE, unsafe,
log 1 and 2). -/
def State.launch (l : Launch) : State :=
  { cfg := l.cfg, w := l.w.getD 0, carry := l.carry.getD false, zero := l.zero.getD false,
    inda := l.inda.getD 0, pc := l.cfg.resetPc, pcPastTop := false, spc := l.spc.getD 0, waiting := false,
    ram := l.ram, prog := Memory.ofWords 0 l.prog, intSource := l.intSource }

/-- The machine right after reset (R34, R240): the default parameters, no register supplied, no RAM word
written, and nothing loaded (log 5). -/
def State.reset : State := State.launch { prog := [] }

end Sys2Proof.Machine
end

