-- ==== Sys2Proof/Machine/Flags.lean ====
section
/-! DEFINITION. Every flag computation of the ALU (40_alu_datapath.md R112 to R120, R126). -/

namespace Sys2Proof.Machine

/-- Zero is set exactly when the 16-bit result is 0 (R114 to R119, R126 item 5). -/
def zeroOf (r : Word) : Bool := decide (r = 0#16)

/-- The bit a left rotate moves out: `m[15]` (R112). -/
def carryRotL (m : Word) : Bool := m.msb

/-- The bit a right rotate moves out: `m[0]` (R113). -/
def carryRotR (m : Word) : Bool := m.getLsbD 0

/-- The 17-bit sum `zext_17(w) + zext_17(m)` (R114). -/
def sum17 (w m : Word) : BitVec 17 := w.setWidth 17 + m.setWidth 17

/-- Carry of Add: "value of 17th bit of result" (R114). -/
def carryAdd (w m : Word) : Bool := (sum17 w m).msb

/-- Carry of Sub: the inverted borrow, 1 exactly when `m >= w` as unsigned numbers (R115, D11). -/
def carrySub (w m : Word) : Bool := decide (w ≤ m)

end Sys2Proof.Machine
end

