-- ==== Sys2Proof/Machine/Ops.lean ====
section
/-! DEFINITION. The named operations over memory, registers and the program counter: the memories, the data
address map with the Indv window (20_memory.md R51 to R57), instruction fetch (R61), interrupt events,
taking an interrupt and returning from one (60_exceptions.md R214 to R216). -/

namespace Sys2Proof.Machine

/-! ### Data RAM and program memory -/

/-- Data RAM has 512 words (R30, D4). -/
def ramWords : Nat := 0x200

/-- What a RAM word that nothing has written reads as: no value, so reading it faults (R34, R52, D14); the same
for a program word that no launch has supplied (R8). DESIGN CHOICE, safe (log 3, 5). -/
def Memory.unlisted : Option Word := none

/-- `RAM[a]` of data RAM, `Prog[a]` of program memory. -/
def Memory.read : Memory → Nat → Option Word
  | [], _ => Memory.unlisted
  | (k, v) :: m, a => if a = k then some v else Memory.read m a

/-- Store `v` at `a`, keeping the addresses in rising order. -/
def Memory.write : Memory → Nat → Word → Memory
  | [], a, v => [(a, v)]
  | (k, x) :: m, a, v =>
    if a < k then (a, v) :: (k, x) :: m
    else if a = k then (a, v) :: m
    else (k, x) :: Memory.write m a v

/-- The canonical form of a memory of `size` words: addresses inside it and strictly rising. An unwritten word
has no value, so no entry can equal what an unlisted address reads as. -/
def Memory.wfIn (size : Nat) : Memory → Bool
  | [] => true
  | (k, _) :: m => decide (k < size) && m.all (fun c => decide (k < c.1)) && Memory.wfIn size m

/-- The canonical form of data RAM. -/
def Memory.wf (m : Memory) : Bool := Memory.wfIn ramWords m

/-! ### The data address map -/

/-- The storage behind a data address: a RAM word or one of the four registers that have storage. -/
inductive Loc where
  | ram (a : BitVec 9)
  | wreg
  | carry
  | zero
  | inda
  deriving DecidableEq, Repr

/-- The storage at a data address (R51). Indv (0x0203) has none of its own (R25), and nothing stands above
0x0204. -/
def storageAt (a : Word) : Option Loc :=
  if a ≤ 0x01FF#16 then some (.ram (a.setWidth 9))
  else if a = 0x0200#16 then some .wreg
  else if a = 0x0201#16 then some .carry
  else if a = 0x0202#16 then some .zero
  else if a = 0x0204#16 then some .inda
  else none

/-- The location Inda points to (R55, R56): a RAM word; with INDV_REACHES_REGS a register; never Indv
itself or an address with nothing behind it. -/
def State.indTarget (s : State) : Except Fault Loc :=
  match storageAt s.inda with
  | some (.ram a) => .ok (.ram a)
  | some l => if s.cfg.indvReachesRegs then .ok l else .error .indirectTarget
  | none => .error .indirectTarget

/-- The location a data address names in a state, or the fault of an access to it (R51, R55, R57). -/
def State.resolve (s : State) (a : Word) : Except Fault Loc :=
  if a = 0x0203#16 then s.indTarget
  else match storageAt a with
    | some l => .ok l
    | none => .error .unmappedData

/-- A one-bit flag as a word: "All other bits are read as 0" (R54). -/
def flagWord (b : Bool) : Word := if b then 1 else 0

/-- The value a location holds; `none` for a RAM word nothing has written (R52). Reading changes nothing. -/
def State.readLoc (s : State) : Loc → Option Word
  | .ram a => Memory.read s.ram a.toNat
  | .wreg => some s.w
  | .carry => some (flagWord s.carry)
  | .zero => some (flagWord s.zero)
  | .inda => some s.inda

/-- Store into a location (R53). The two flags take bit 0 and ignore the other fifteen (R54). -/
def State.writeLoc (s : State) (l : Loc) (v : Word) : State :=
  match l with
  | .ram a => { s with ram := Memory.write s.ram a.toNat v }
  | .wreg => { s with w := v }
  | .carry => { s with carry := v.getLsbD 0 }
  | .zero => { s with zero := v.getLsbD 0 }
  | .inda => { s with inda := v }

/-- The value at a location that was found, or the fault of reading it. -/
def State.readFound (s : State) (l : Loc) : Except Fault Word :=
  match s.readLoc l with
  | some v => .ok v
  | none => .error .unwrittenRead

/-- `DataRead(a)` (R52). -/
def State.dataRead (s : State) (a : Word) : Except Fault Word :=
  match s.resolve a with
  | .ok l => s.readFound l
  | .error f => .error f

/-- `DataWrite(a, v)` (R53). -/
def State.dataWrite (s : State) (a : Word) (v : Word) : Except Fault State :=
  match s.resolve a with
  | .ok l => .ok (s.writeLoc l v)
  | .error f => .error f

/-! ### The program counter and instruction fetch -/

/-- `pc <- target`, an address given whole. -/
def State.jump (s : State) (target : Word) : State := { s with pc := target, pcPastTop := false }

/-- The sum `base + n` passes 0xFFFF, which is past the top of program memory unless PROG_WORDS = 65536, "where
the spec defines the wrap as modulo 2^16" (R27, D21). -/
def State.sumPastTop (s : State) (base : Word) (n : Nat) : Bool :=
  decide (0x10000 ≤ base.toNat + n) && decide (s.cfg.progWords < 0x10000)

/-- `pc <- base + n`, modulo 2^16, and whether the sum passed the top of program memory: then the next fetch
faults "instead of wrapping into valid code" (R27, D21; the form is log 16). -/
def State.jumpSum (s : State) (base : Word) (n : Nat) : State :=
  { s with pc := base + BitVec.ofNat 16 n, pcPastTop := s.sumPastTop base n }

/-- `pc <- pc + 1`: the next instruction is the next word (R27, D20). -/
def State.advance (s : State) : State := s.jumpSum s.pc 1

/-- `pc + 2` when the ALU asserts PC_Skip, else `pc + 1` (R27). -/
def State.advanceSkip (s : State) (skip : Bool) : State := s.jumpSum s.pc (if skip then 2 else 1)

/-- Instruction fetch (R61): `Prog[pc]`, or the fault of a pc at or beyond PROG_WORDS, one whose sum passed the top
and wrapped included (R27, D21). A word inside program
memory that no launch has supplied has no value to fetch (R8, log 5). -/
def State.fetch (s : State) : Except Fault Word :=
  if s.cfg.progWords ≤ s.pc.toNat ∨ s.pcPastTop = true then .error .fetchOutOfRange
  else match Memory.read s.prog s.pc.toNat with
    | some w => .ok w
    | none => .error .unwrittenRead

/-! ### Waiting and interrupts -/

/-- `wfi`: save the pc, wait, hold the pc (R200). -/
def State.beginWait (s : State) : State := { s with spc := s.pc, waiting := true }

/-- The interrupt event IntSource delivers at this boundary, if any (R213). -/
def State.event (s : State) : Option IntEntry := s.intSource.head?.join

/-- The state with this boundary behind it (the model's own field moves on; nothing else changes). -/
def State.passBoundary (s : State) : State := { s with intSource := s.intSource.tail }

/-- Take an interrupt: any wait ends, and IntEntry's result gives `pc` and `spc`; W, C, Z, INDA and memory
are neither saved nor changed (R214, R215 (b)). That the wait always ends is DEDUCED (log 10). -/
def State.takeInterrupt (s : State) (e : IntEntry) : State :=
  { s with pc := e.pc, pcPastTop := false, spc := e.spc, waiting := false }

/-- Return from an interrupt: `pc <- spc + 2`, modulo 2^16; nothing else is restored (R201, R216). A sum past the
top of program memory faults at the next fetch (R27). -/
def State.returnFromInterrupt (s : State) : State := s.jumpSum s.spc 2

end Sys2Proof.Machine
end

