-- ==== Sys2Proof/Machine/Operands.lean ====
section
/-! DEFINITION. The operand forms of 30_encoding.md R83, and where a result goes (R85). The implicit
operands W and C are read from the state directly. -/

namespace Sys2Proof.Machine

/-- The data address of a mem/reg operand: `zext_16(lit)` (R67, D3). -/
def dataAddr (lit : Lit) : Word := lit.setWidth 16

/-- The immediate of `mlw`: `sext_16(lit)` (R83, R143). -/
def immediate (lit : Lit) : Word := lit.signExtend 16

/-- The jump target of `gol`: `zext_16(lit)` (R83, R190, D2). -/
def jumpTarget (lit : Lit) : Word := lit.setWidth 16

/-- The destination a Dest bit names (R85): W, or the mem/reg operand itself. -/
inductive Dest where
  | toW
  | toM
  deriving DecidableEq, Repr

/-- The mem/reg operand named by a literal: its location, or the fault of naming it (R67, R51). -/
def State.operandLoc (s : State) (lit : Lit) : Except Fault Loc := s.resolve (dataAddr lit)

/-- Put a result where Dest says (R85, R124). -/
def State.putResult (s : State) (dest : Dest) (l : Loc) (r : Word) : State :=
  match dest with
  | .toW => { s with w := r }
  | .toM => s.writeLoc l r

end Sys2Proof.Machine
end

