-- ==== Sys2Proof/Machine/Alu.lean ====
section
/-! DEFINITION. The ALU (40_alu_datapath.md R110 to R122) and the template of the eight ALU instructions
(R124), with the order of checks of R125. -/

namespace Sys2Proof.Machine

/-- The ALU operations of R111. The six numbers of `Nop` are one operation. -/
inductive AluOp where
  | rotL
  | rotR
  | add
  | sub
  | and
  | or
  | xor
  | zeroTest
  | pcZero
  | pcZerobar
  | nop
  deriving DecidableEq, Repr

/-- What the ALU gives: result, new flags, skip (R110). -/
structure AluOut where
  result : Word
  carry : Bool
  zero : Bool
  skip : Bool
  deriving DecidableEq, Repr

/-- "Affects Status" lists Carry (R111). -/
def AluOp.affectsCarry : AluOp → Bool
  | .rotL | .rotR | .add | .sub => true
  | .and | .or | .xor | .zeroTest | .pcZero | .pcZerobar | .nop => false

/-- "Affects Status" lists Zero (R111). -/
def AluOp.affectsZero : AluOp → Bool
  | .add | .sub | .and | .or | .xor | .zeroTest => true
  | .rotL | .rotR | .pcZero | .pcZerobar | .nop => false

/-- The result of an operation on `w` (W), `m` (the mem/reg operand) and the old Carry `c`
(R112 to R121). The skip tests use no result; the ALU passes W there as Nop does. -/
def aluResult (op : AluOp) (w m : Word) (c : Bool) : Word :=
  match op with
  | .rotL => (m.setWidth 15).concat c
  | .rotR => BitVec.cons c (m.extractLsb' 1 15)
  | .add => (sum17 w m).setWidth 16
  | .sub => m - w
  | .and => w &&& m
  | .or => w ||| m
  | .xor => w ^^^ m
  | .zeroTest => m
  | .pcZero | .pcZerobar | .nop => w

/-- The Carry an operation gives; the old one passes through where it is not affected (R122). -/
def aluCarry (op : AluOp) (w m : Word) (c : Bool) : Bool :=
  match op with
  | .rotL => carryRotL m
  | .rotR => carryRotR m
  | .add => carryAdd w m
  | .sub => carrySub w m
  | .and | .or | .xor | .zeroTest | .pcZero | .pcZerobar | .nop => c

/-- The skip signal: PCZero on a nonzero operand, PCZerobar on a zero one (R120). -/
def aluSkip (op : AluOp) (m : Word) : Bool :=
  match op with
  | .pcZero => !zeroOf m
  | .pcZerobar => zeroOf m
  | .rotL | .rotR | .add | .sub | .and | .or | .xor | .zeroTest | .nop => false

/-- The ALU as the pure function of R110. -/
def alu (op : AluOp) (w m : Word) (c z : Bool) : AluOut :=
  { result := aluResult op w m c
    carry := aluCarry op w m c
    zero := if op.affectsZero then zeroOf (aluResult op w m c) else z
    skip := aluSkip op m }

/-- The two-writer case (R68): the stored result lands on a flag the same instruction affects. The location
counts, so the case through Indv (possible only with INDV_REACHES_REGS) is one as well: DEDUCED, safe
(log 8). -/
def writesAffectedFlag (op : AluOp) (dest : Dest) (l : Loc) : Bool :=
  match dest, l with
  | .toM, .carry => op.affectsCarry
  | .toM, .zero => op.affectsZero
  | _, _ => false

/-- Load the flags an operation affects, after the result is stored (R124). -/
def State.setFlags (s : State) (op : AluOp) (out : AluOut) : State :=
  { s with
    carry := if op.affectsCarry then out.carry else s.carry
    zero := if op.affectsZero then out.zero else s.zero }

/-- The effect of an ALU instruction once its operand `m` at `l` is read (R124). -/
def State.aluEffect (s : State) (op : AluOp) (dest : Dest) (l : Loc) (m : Word) : State :=
  let out := alu op s.w m s.carry s.zero
  ((s.putResult dest l out.result).setFlags op out).advance

/-- The template `ExecALU` (R124); the faults come in the order of R125. -/
def execAlu (op : AluOp) (dest : Dest) (lit : Lit) (s : State) : Host.Outcome State Fault Refusal :=
  match s.operandLoc lit with
  | .error f => .fault f
  | .ok l =>
    if writesAffectedFlag op dest l then .fault .statusWriteConflict
    else match s.readLoc l with
      | none => .fault .unwrittenRead
      | some m => .next (s.aluEffect op dest l m)

/-- The template of the two skips (R180, R181): read the operand, skip as the ALU says, change nothing
else. -/
def execSkip (op : AluOp) (lit : Lit) (s : State) : Host.Outcome State Fault Refusal :=
  match s.dataRead (dataAddr lit) with
  | .error f => .fault f
  | .ok m => .next (s.advanceSkip (alu op s.w m s.carry s.zero).skip)

end Sys2Proof.Machine
end

