-- ==== Sys2Proof/Machine/Arith.lean ====
section
/-! DEFINITION. The arithmetic instructions add, sub (44_arith.md R170, R171). -/

namespace Sys2Proof.Machine

/-- `add <addr>,w`: operand plus W, result to W (R170). -/
def execAddW (lit : Lit) (s : State) : Host.Outcome State Fault Refusal :=
  execAlu .add .toW lit s

/-- `add <addr>,m`: operand plus W, result to the operand (R170). -/
def execAddM (lit : Lit) (s : State) : Host.Outcome State Fault Refusal :=
  execAlu .add .toM lit s

/-- `sub <addr>,w`: operand minus W, result to W (R171). -/
def execSubW (lit : Lit) (s : State) : Host.Outcome State Fault Refusal :=
  execAlu .sub .toW lit s

/-- `sub <addr>,m`: operand minus W, result to the operand (R171). -/
def execSubM (lit : Lit) (s : State) : Host.Outcome State Fault Refusal :=
  execAlu .sub .toM lit s

end Sys2Proof.Machine
end

