-- ==== Sys2Proof/Machine/Interrupts.lean ====
section
/-! DEFINITION. The interrupt pair wfi, rfi (47_interrupt_instr.md R200, R201). -/

namespace Sys2Proof.Machine

/-- `wfi`: save the pc and wait; the pc stays at the wfi (R200). -/
def execWfi (_dest : DestBit) (_ign : Lit) (s : State) : Host.Outcome State Fault Refusal :=
  .next s.beginWait

/-- `rfi`: pc takes spc + 2. `spc` always holds a value (log 2), so this never faults (R201). -/
def execRfi (_dest : DestBit) (_ign : Lit) (s : State) : Host.Outcome State Fault Refusal :=
  .next s.returnFromInterrupt

end Sys2Proof.Machine
end

