-- ==== Sys2Proof/Machine/Jumps.lean ====
section
/-! DEFINITION. The jumps gol, gow (46_jumps.md R190, R191). -/

namespace Sys2Proof.Machine

/-- `gol <target>`: pc takes the literal, zero-extended (R190, D2). -/
def execGol (_dest : DestBit) (lit : Lit) (s : State) : Host.Outcome State Fault Refusal :=
  .next (s.jump (jumpTarget lit))

/-- `gow`: pc takes all 16 bits of W (R191, D1). -/
def execGow (_dest : DestBit) (_ign : Lit) (s : State) : Host.Outcome State Fault Refusal :=
  .next (s.jump s.w)

end Sys2Proof.Machine
end

