-- ==== Sys2Proof/Machine/Logic.lean ====
section
/-! DEFINITION. The bitwise instructions awm, owm, xwm (43_logic.md R160 to R162). -/

namespace Sys2Proof.Machine

/-- `awm <addr>,w`: W AND operand, result to W (R160). -/
def execAwmW (lit : Lit) (s : State) : Host.Outcome State Fault Refusal :=
  execAlu .and .toW lit s

/-- `awm <addr>,m`: W AND operand, result to the operand (R160). -/
def execAwmM (lit : Lit) (s : State) : Host.Outcome State Fault Refusal :=
  execAlu .and .toM lit s

/-- `owm <addr>,w`: W OR operand, result to W (R161). -/
def execOwmW (lit : Lit) (s : State) : Host.Outcome State Fault Refusal :=
  execAlu .or .toW lit s

/-- `owm <addr>,m`: W OR operand, result to the operand (R161). -/
def execOwmM (lit : Lit) (s : State) : Host.Outcome State Fault Refusal :=
  execAlu .or .toM lit s

/-- `xwm <addr>,w`: W XOR operand, result to W (R162). -/
def execXwmW (lit : Lit) (s : State) : Host.Outcome State Fault Refusal :=
  execAlu .xor .toW lit s

/-- `xwm <addr>,m`: W XOR operand, result to the operand (R162). -/
def execXwmM (lit : Lit) (s : State) : Host.Outcome State Fault Refusal :=
  execAlu .xor .toM lit s

end Sys2Proof.Machine
end

