-- ==== Sys2Proof/Machine/Moves.lean ====
section
/-! DEFINITION. The moves mm, mwm, mlw (41_moves.md R140 to R143). -/

namespace Sys2Proof.Machine

/-- `mm <addr>,w`: W takes the operand, Z tells whether it is 0 (R140). -/
def execMmW (lit : Lit) (s : State) : Host.Outcome State Fault Refusal :=
  execAlu .zeroTest .toW lit s

/-- `mm <addr>,m`: the operand is written back to itself, Z tells whether it is 0 (R141). -/
def execMmM (lit : Lit) (s : State) : Host.Outcome State Fault Refusal :=
  execAlu .zeroTest .toM lit s

/-- `mwm <addr>`: `DataWrite(addr, W)`; the target is not read and no flag is affected (R142, R69). -/
def execMwm (_dest : DestBit) (lit : Lit) (s : State) : Host.Outcome State Fault Refusal :=
  match s.dataWrite (dataAddr lit) s.w with
  | .error f => .fault f
  | .ok t => .next t.advance

/-- `mlw <value>`: W takes the sign-extended literal; no data access, no flag (R143, R69). -/
def execMlw (_dest : DestBit) (lit : Lit) (s : State) : Host.Outcome State Fault Refusal :=
  .next { s with w := immediate lit }.advance

end Sys2Proof.Machine
end

