-- ==== Sys2Proof/Machine/Rotates.lean ====
section
/-! DEFINITION. The rotates through Carry rlm, rrm (42_rotates.md R150, R151). -/

namespace Sys2Proof.Machine

/-- `rlm <addr>,w`: rotate left through Carry, result to W (R150). -/
def execRlmW (lit : Lit) (s : State) : Host.Outcome State Fault Refusal :=
  execAlu .rotL .toW lit s

/-- `rlm <addr>,m`: rotate left through Carry, result to the operand (R150). -/
def execRlmM (lit : Lit) (s : State) : Host.Outcome State Fault Refusal :=
  execAlu .rotL .toM lit s

/-- `rrm <addr>,w`: rotate right through Carry, result to W (R151). -/
def execRrmW (lit : Lit) (s : State) : Host.Outcome State Fault Refusal :=
  execAlu .rotR .toW lit s

/-- `rrm <addr>,m`: rotate right through Carry, result to the operand (R151). -/
def execRrmM (lit : Lit) (s : State) : Host.Outcome State Fault Refusal :=
  execAlu .rotR .toM lit s

end Sys2Proof.Machine
end

