-- ==== Sys2Proof/Machine/Skips.lean ====
section
/-! DEFINITION. The conditional skips sms, smc (45_skips.md R180, R181). -/

namespace Sys2Proof.Machine

/-- `sms <addr>`: skip the next instruction if the operand is nonzero (R180). -/
def execSms (_dest : DestBit) (lit : Lit) (s : State) : Host.Outcome State Fault Refusal :=
  execSkip .pcZero lit s

/-- `smc <addr>`: skip the next instruction if the operand is zero (R181). -/
def execSmc (_dest : DestBit) (lit : Lit) (s : State) : Host.Outcome State Fault Refusal :=
  execSkip .pcZerobar lit s

end Sys2Proof.Machine
end

