-- ==== Sys2Proof/Machine/Dispatch.lean ====
section
/-! DEFINITION. The dispatch: one arm per constructor of Instr, each one call of that instruction's meaning
(30_encoding.md R84). -/

namespace Sys2Proof.Machine

def exec (i : Instr) (s : State) : Host.Outcome State Fault Refusal :=
  match i with
  | .mmW lit => Sys2Proof.Machine.execMmW lit s
  | .mmM lit => Sys2Proof.Machine.execMmM lit s
  | .mwm dest lit => Sys2Proof.Machine.execMwm dest lit s
  | .mlw dest lit => Sys2Proof.Machine.execMlw dest lit s
  | .rlmW lit => Sys2Proof.Machine.execRlmW lit s
  | .rlmM lit => Sys2Proof.Machine.execRlmM lit s
  | .rrmW lit => Sys2Proof.Machine.execRrmW lit s
  | .rrmM lit => Sys2Proof.Machine.execRrmM lit s
  | .awmW lit => Sys2Proof.Machine.execAwmW lit s
  | .awmM lit => Sys2Proof.Machine.execAwmM lit s
  | .owmW lit => Sys2Proof.Machine.execOwmW lit s
  | .owmM lit => Sys2Proof.Machine.execOwmM lit s
  | .xwmW lit => Sys2Proof.Machine.execXwmW lit s
  | .xwmM lit => Sys2Proof.Machine.execXwmM lit s
  | .addW lit => Sys2Proof.Machine.execAddW lit s
  | .addM lit => Sys2Proof.Machine.execAddM lit s
  | .subW lit => Sys2Proof.Machine.execSubW lit s
  | .subM lit => Sys2Proof.Machine.execSubM lit s
  | .sms dest lit => Sys2Proof.Machine.execSms dest lit s
  | .smc dest lit => Sys2Proof.Machine.execSmc dest lit s
  | .gol dest lit => Sys2Proof.Machine.execGol dest lit s
  | .gow dest ign => Sys2Proof.Machine.execGow dest ign s
  | .wfi dest ign => Sys2Proof.Machine.execWfi dest ign s
  | .rfi dest ign => Sys2Proof.Machine.execRfi dest ign s

end Sys2Proof.Machine
end

