-- ==== Sys2Proof/Machine/Step.lean ====
section
/-! DEFINITION. One step of the machine (40_alu_datapath.md R123; 60_exceptions.md R213 to R215, R219). -/

namespace Sys2Proof.Machine

/-- One step from an instruction boundary. If IntSource delivers an event here, the step is the taking of
that interrupt (R214, R215, R219). Otherwise a waiting core keeps its state (R29, R123; log 11), and a
running core fetches the word at pc, decodes it and executes it (R123, R61). Nothing else acts during a run
(log 15) and nothing takes time (log 13). -/
def step (s : State) : Host.Outcome State Fault Refusal :=
  match s.event with
  | some e => .next (s.passBoundary.takeInterrupt e)
  | none =>
    if s.waiting then .next s.passBoundary
    else match s.fetch with
      | .error f => .fault f
      | .ok w => exec (decode w) s.passBoundary

/-- `s` with the instruction whose bits are `w` at `Prog[pc]`, program memory reaching up to there, running and
with no interrupt event to come, so that the very next step executes it (log 5). -/
def State.withFetchWord (s : State) (nbits w : Nat) : State :=
  { s with
    cfg := { s.cfg with lastProg := if s.cfg.lastProg < s.pc then s.pc else s.cfg.lastProg }
    prog := Memory.write s.prog s.pc.toNat (BitVec.ofNat 16 (w % 2 ^ nbits))
    pcPastTop := false
    waiting := false
    intSource := [] }

end Sys2Proof.Machine
end

