-- ==== Sys2Proof/Safety.lean ====
section
/-! DEFINITION. The terms claims are stated in: the invariant of a state, where an instruction stores, which
instructions write what (10_state.md R36, 20_memory.md R67, R69), and the stop of a run (R245). -/

namespace Sys2Proof.Machine

/-- What every step keeps: RAM and program memory are in canonical form, the latter inside PROG_WORDS (R31); a
waiting core holds `pc` at the saved pc (R200, R245); and a sum of `pc` past the top of program memory is one that
wrapped to 0 or 1, below PROG_WORDS = 65536, in a core that runs (R27, log 16). -/
def State.Inv (s : State) : Prop :=
  Memory.wf s.ram = true ∧ Memory.wfIn s.cfg.progWords s.prog = true ∧ (s.waiting = true → s.pc = s.spc) ∧
  (s.pcPastTop = true → s.pc.toNat ≤ 1 ∧ s.cfg.progWords < 0x10000 ∧ s.waiting = false)

/-- All PROG_WORDS words of program memory have been supplied, as R246 wants of the host. -/
def State.Loaded (s : State) : Prop := ∀ a, a < s.cfg.progWords → Memory.read s.prog a ≠ none

/-- IntSource delivers no further event: none at any coming boundary, whether its list goes on or has ended
(R213, R245; log 9). -/
def State.NoFurtherEvent (s : State) : Prop := ∀ e ∈ s.intSource, e = none

/-- A run has stopped (R245): the core waits and IntSource delivers no further event. -/
def State.Stopped (s : State) : Prop := s.waiting = true ∧ s.NoFurtherEvent

/-- Run one instruction `n` times over, as if fetched each time: for claims about repetition. -/
def execTimes : Nat → Instr → State → Host.Outcome State Fault Refusal
  | 0, _, s => .next s
  | n + 1, i, s =>
    match exec i s with
    | .next t => execTimes n i t
    | .fault f => .fault f
    | .refused r => .refused r

end Sys2Proof.Machine

namespace Sys2Proof

open Sys2Proof.Machine

/-- The literal of the mem/reg operand, for the eleven mnemonics that have one (R67). -/
def Instr.operand : Instr → Option Lit
  | .mmW lit | .mmM lit | .mwm _ lit => some lit
  | .rlmW lit | .rlmM lit | .rrmW lit | .rrmM lit => some lit
  | .awmW lit | .awmM lit | .owmW lit | .owmM lit | .xwmW lit | .xwmM lit => some lit
  | .addW lit | .addM lit | .subW lit | .subM lit => some lit
  | .sms _ lit | .smc _ lit => some lit
  | .mlw _ _ | .gol _ _ | .gow _ _ | .wfi _ _ | .rfi _ _ => none

/-- `Mem_Write = 1`: the instruction writes its mem/reg operand (R69). -/
def Instr.stores : Instr → Bool
  | .mmM _ | .mwm _ _ | .rlmM _ | .rrmM _ | .awmM _ | .owmM _ | .xwmM _ | .addM _ | .subM _ => true
  | .mmW _ | .mlw _ _ | .rlmW _ | .rrmW _ | .awmW _ | .owmW _ | .xwmW _ | .addW _ | .subW _ => false
  | .sms _ _ | .smc _ _ | .gol _ _ | .gow _ _ | .wfi _ _ | .rfi _ _ => false

/-- The instruction reads its mem/reg operand (R69: all that have one, but mwm). -/
def Instr.loads : Instr → Bool
  | .mmW _ | .mmM _ | .rlmW _ | .rlmM _ | .rrmW _ | .rrmM _ => true
  | .awmW _ | .awmM _ | .owmW _ | .owmM _ | .xwmW _ | .xwmM _ => true
  | .addW _ | .addM _ | .subW _ | .subM _ | .sms _ _ | .smc _ _ => true
  | .mwm _ _ | .mlw _ _ | .gol _ _ | .gow _ _ | .wfi _ _ | .rfi _ _ => false

/-- The destination is W: the eight Dest = 0 forms and mlw (R21). -/
def Instr.destIsW : Instr → Bool
  | .mmW _ | .mlw _ _ | .rlmW _ | .rrmW _ | .awmW _ | .owmW _ | .xwmW _ | .addW _ | .subW _ => true
  | .mmM _ | .mwm _ _ | .rlmM _ | .rrmM _ | .awmM _ | .owmM _ | .xwmM _ | .addM _ | .subM _ => false
  | .sms _ _ | .smc _ _ | .gol _ _ | .gow _ _ | .wfi _ _ | .rfi _ _ => false

/-- "writes C" of the table of R36. -/
def Instr.affectsCarry : Instr → Bool
  | .rlmW _ | .rlmM _ | .rrmW _ | .rrmM _ | .addW _ | .addM _ | .subW _ | .subM _ => true
  | .mmW _ | .mmM _ | .mwm _ _ | .mlw _ _ => false
  | .awmW _ | .awmM _ | .owmW _ | .owmM _ | .xwmW _ | .xwmM _ => false
  | .sms _ _ | .smc _ _ | .gol _ _ | .gow _ _ | .wfi _ _ | .rfi _ _ => false

/-- "writes Z" of the table of R36. -/
def Instr.affectsZero : Instr → Bool
  | .mmW _ | .mmM _ | .awmW _ | .awmM _ | .owmW _ | .owmM _ | .xwmW _ | .xwmM _ => true
  | .addW _ | .addM _ | .subW _ | .subM _ => true
  | .mwm _ _ | .mlw _ _ | .rlmW _ | .rlmM _ | .rrmW _ | .rrmM _ => false
  | .sms _ _ | .smc _ _ | .gol _ _ | .gow _ _ | .wfi _ _ | .rfi _ _ => false

/-- The location an instruction stores to in a state: its operand's location, computed as its meaning
computes it, if it stores at all. -/
def Instr.storeLoc (i : Instr) (s : State) : Option Loc :=
  match i.stores, i.operand with
  | true, some lit =>
    match s.operandLoc lit with
    | .ok l => some l
    | .error _ => none
  | _, _ => none

/-- The two-writer case of R68 for the location `l`: the instruction stores to a flag it also affects. -/
def Instr.statusConflict (i : Instr) (l : Loc) : Bool :=
  i.stores && ((i.affectsCarry && l == .carry) || (i.affectsZero && l == .zero))

/-- What the new pc is a sum on, by the table of R27: spc for rfi, pc for all others but gol, gow and wfi, which
add nothing. -/
def Instr.pcBase (i : Instr) (s : State) : Option Word :=
  match i with
  | .gol _ _ | .gow _ _ | .wfi _ _ => none
  | .rfi _ _ => some s.spc
  | .mmW _ | .mmM _ | .mwm _ _ | .mlw _ _ | .rlmW _ | .rlmM _ | .rrmW _ | .rrmM _ => some s.pc
  | .awmW _ | .awmM _ | .owmW _ | .owmM _ | .xwmW _ | .xwmM _ => some s.pc
  | .addW _ | .addM _ | .subW _ | .subM _ | .sms _ _ | .smc _ _ => some s.pc

/-- `wfi`, the only instruction that starts a wait (R200, R225). -/
def Instr.isWfi : Instr → Bool
  | .wfi _ _ => true
  | .mmW _ | .mmM _ | .mwm _ _ | .mlw _ _ | .rlmW _ | .rlmM _ | .rrmW _ | .rrmM _ => false
  | .awmW _ | .awmM _ | .owmW _ | .owmM _ | .xwmW _ | .xwmM _ => false
  | .addW _ | .addM _ | .subW _ | .subM _ => false
  | .sms _ _ | .smc _ _ | .gol _ _ | .gow _ _ | .rfi _ _ => false

end Sys2Proof
end

