-- ==== Sys2Proof/Certificates/Slice0/Obligations.lean ====
section
/-! DEFINITION. The statements for the provers. A docstring names the rule of spec/ it formalises; where a
clause rests on a decision of the spec (D<n>) or of the model (log <n>), it says so. For all of them: that W, C,
Z, INDA and spc hold a value in every state, so that reading one never faults, is the model's choice (log 1, 2). -/

open Sys2Proof Sys2Proof.Machine

/-! ### Reset, the step, waiting and interrupts -/

/-- Reset (R34, R240, decisions D13, D14): execution starts at 0x0000 and runs, no RAM word holds a value, and
IntSource delivers nothing. That W, C, Z, INDA and spc hold zero is the model's own choice (log 1, 2), and so are
PROG_WORDS = 1024, for which the spec has no default, and that nothing is loaded yet, where R34 has Prog hold the
program (log 5). -/
def Obligations.ResetLeavesLaunchState : Prop :=
  State.reset.pc = 0x0000#16 ∧ State.reset.pcPastTop = false ∧ State.reset.waiting = false ∧
  (∀ a, Memory.read State.reset.ram a = none) ∧
  State.reset.cfg.progWords = 1024 ∧ (∀ a, Memory.read State.reset.prog a = none) ∧
  State.reset.intSource = [] ∧ State.reset.cfg.indvReachesRegs = false ∧
  State.reset.w = 0 ∧ State.reset.carry = false ∧ State.reset.zero = false ∧ State.reset.inda = 0 ∧
  State.reset.spc = 0

/-- PROG_WORDS is between 1 and 65536 in every state, and takes every value there (R6; the form is log 5). -/
def Obligations.ProgWordsInRange : Prop :=
  (∀ s : State, 1 ≤ s.cfg.progWords ∧ s.cfg.progWords ≤ 65536) ∧
  ∀ n, 1 ≤ n → n ≤ 65536 → ∃ l : Launch, (State.launch l).cfg.progWords = n

/-- Every launch with canonical RAM and a program that fits in PROG_WORDS meets the invariant, whatever else is
supplied, and so does reset; one that supplies all PROG_WORDS words, as R246 has it, leaves program memory
loaded. -/
def Obligations.LaunchMeetsInv : Prop :=
  State.reset.Inv ∧
  (∀ l : Launch, Memory.wf l.ram = true → l.prog.length ≤ l.cfg.progWords → (State.launch l).Inv) ∧
  ∀ l : Launch, l.prog.length = l.cfg.progWords → (State.launch l).Loaded

/-- The launch state (R246, decision D27): every element supplied holds the value supplied, `pc = RESET_PC`, the
core runs, and RAM, program, parameters and IntSource are those supplied. A register that is not supplied holds
zero by the model's own choice (log 1, 2). -/
def Obligations.LaunchHoldsWhatIsSupplied : Prop :=
  ∀ l : Launch, (State.launch l).pc = l.cfg.resetPc ∧ (State.launch l).pcPastTop = false ∧
    (State.launch l).waiting = false ∧
    (State.launch l).ram = l.ram ∧ (∀ a, Memory.read (State.launch l).prog a = l.prog[a]?) ∧
    (State.launch l).cfg = l.cfg ∧
    (State.launch l).intSource = l.intSource ∧
    (∀ v, l.w = some v → (State.launch l).w = v) ∧ (l.w = none → (State.launch l).w = 0) ∧
    (∀ c, l.carry = some c → (State.launch l).carry = c) ∧ (l.carry = none → (State.launch l).carry = false) ∧
    (∀ z, l.zero = some z → (State.launch l).zero = z) ∧ (l.zero = none → (State.launch l).zero = false) ∧
    (∀ v, l.inda = some v → (State.launch l).inda = v) ∧ (l.inda = none → (State.launch l).inda = 0) ∧
    (∀ v, l.spc = some v → (State.launch l).spc = v) ∧ (l.spc = none → (State.launch l).spc = 0)

/-- Every step keeps the invariant: RAM and program memory stay canonical, a waiting core holds pc at the saved
pc (R200, R245), and a pc that passed the top of program memory is one that wrapped, to 0 or 1, in a core that runs
(R27, D21; the form is log 16). -/
def Obligations.StepKeepsInv : Prop :=
  ∀ s t : State, s.Inv → step s = .next t → t.Inv

/-- No step changes program memory or a parameter (R31, R62, D10). IntSource, a parameter too by R6, is in this
model a list with one entry a boundary, and a step moves it on by one (the model's form, log 9). -/
def Obligations.StepKeepsProgramAndParameters : Prop :=
  ∀ s t : State, step s = .next t → t.prog = s.prog ∧ t.cfg = s.cfg ∧ t.intSource = s.intSource.tail

/-- A running core with no event at this boundary executes the instruction the word at pc decodes to
(R123), if that pc is not one that passed the top of program memory and wrapped (R27); around
it the model only moves its own IntSource list on (log 9). -/
def Obligations.StepRunsDecodedInstruction : Prop :=
  ∀ (s : State) (w : Word), s.event = none → s.waiting = false → s.pc.toNat < s.cfg.progWords →
    s.pcPastTop = false → Memory.read s.prog s.pc.toNat = some w →
    step s = exec (decode w) s.passBoundary ∧ (s.intSource = [] → s.passBoundary = s)

/-- A fetch is out of range exactly when pc is at or beyond PROG_WORDS, or came of a sum past the top of program
memory and wrapped (R27, D21; log 16), and with all of program memory supplied there is no other fetch fault: the
word is executed (R61, D1). That a word no launch has supplied is an unwritten
read is the model's choice (log 5). -/
def Obligations.FetchFaultsExactlyBeyondProgram : Prop :=
  ∀ s : State, s.event = none → s.waiting = false →
    (step s = .fault .fetchOutOfRange ↔ s.cfg.progWords ≤ s.pc.toNat ∨ s.pcPastTop = true) ∧
    (s.Loaded → s.pc.toNat < s.cfg.progWords → s.pcPastTop = false →
      ∃ w, Memory.read s.prog s.pc.toNat = some w ∧ step s = exec (decode w) s.passBoundary) ∧
    (s.pc.toNat < s.cfg.progWords → s.pcPastTop = false → Memory.read s.prog s.pc.toNat = none →
      step s = .fault .unwrittenRead)

/-- Only wfi enters the wait state; in it all architectural state is retained; an interrupt ends it, and
nothing else does (R225, R214). That a waiting core's step answers a next state at all is the model's choice
(log 11), and the form of the event is log 9. -/
def Obligations.WaitRetainsStateUntilInterrupt : Prop :=
  (∀ s t : State, s.waiting = false → step s = .next t → t.waiting = true →
    ∃ w, Memory.read s.prog s.pc.toNat = some w ∧ (decode w).isWfi = true) ∧
  (∀ s : State, s.waiting = true → s.event = none → ∃ t, step s = .next t ∧ t.waiting = true ∧ t.w = s.w ∧
    t.carry = s.carry ∧ t.zero = s.zero ∧ t.inda = s.inda ∧ t.spc = s.spc ∧ t.ram = s.ram ∧ t.pc = s.pc ∧
    t.pcPastTop = s.pcPastTop) ∧
  (∀ (s : State) (e : IntEntry), s.waiting = true → s.event = some e → ∃ t, step s = .next t ∧ t.waiting = false)

/-- Taking an interrupt gives pc and spc as IntEntry says, ends any wait, and changes nothing else
(R214, R215 (b), decision D15; the event's form is log 9). -/
def Obligations.InterruptChangesOnlyPcSpcWaiting : Prop :=
  ∀ (s : State) (e : IntEntry), s.event = some e → ∃ t, step s = .next t ∧
    t.pc = e.pc ∧ t.pcPastTop = false ∧ t.spc = e.spc ∧
    t.waiting = false ∧ t.w = s.w ∧ t.carry = s.carry ∧ t.zero = s.zero ∧ t.inda = s.inda ∧ t.ram = s.ram ∧
    t.prog = s.prog ∧ t.cfg = s.cfg

/-- A stopped machine stays stopped, with all its state as it is, for any number of steps (R245, D16). Only the
model's own list of events gets shorter (log 9); that a waiting core's step answers its own state is log 11. -/
def Obligations.StoppedMachineStaysStopped : Prop :=
  ∀ (s : State) (n : Nat), s.Stopped → ∃ t, Host.Core.run Sys2Proof.core n s = .next t ∧ t.Stopped ∧
    t = { s with intSource := s.intSource.drop n }

/-- A core that waits and has not stopped in the sense of R245 leaves the wait: IntSource still delivers an event,
and some number of steps later it has been taken (R214, R245, D16). The events' form is log 9, the waiting
steps log 11. -/
def Obligations.WaitEndsUnlessStopped : Prop :=
  ∀ s : State, s.waiting = true → ¬ s.Stopped →
    ∃ n t, Host.Core.run Sys2Proof.core n s = .next t ∧ t.waiting = false

/-- No step answers the outcome `refused`: no instruction is left unmodelled (R86 gives every word an
instruction). A step to which the spec gives no meaning answers a fault (R211), not a refusal. -/
def Obligations.NoStepIsRefused : Prop :=
  ∀ (s : State) (r : Refusal), step s ≠ .refused r

/-- Placing a word with `withFetchWord` makes the very next step execute it (log 5). -/
def Obligations.PlacedWordRunsNext : Prop :=
  ∀ (s : State) (w : Nat), w < 2 ^ 16 →
    step (s.withFetchWord 16 w) = exec (decode (BitVec.ofNat 16 w)) (s.withFetchWord 16 w)

/-- Program memory is reached by instruction fetch only (R35): a step depends on it only through the word at
pc. Two states that differ in program memory alone, with the same word at pc, make the same step. -/
def Obligations.StepDependsOnFetchedWordOnly : Prop :=
  ∀ (s : State) (p : Memory), Memory.read p s.pc.toNat = Memory.read s.prog s.pc.toNat →
    (∀ t, step s = .next t → step { s with prog := p } = .next { t with prog := p }) ∧
    (∀ f, step s = .fault f → step { s with prog := p } = .fault f)

/-! ### Encoding -/

/-- Decoding an encoded instruction gives it back, with every operand at every value. -/
def Obligations.DecodeOfEncode : Prop :=
  ∀ i : Instr, decode (encode i) = i

/-- Encoding a decoded word gives it back, ignored bits included (R87). -/
def Obligations.EncodeOfDecode : Prop :=
  ∀ w : Word, encode (decode w) = w

/-- Every word matches exactly one row of the opcode table, the row of the instruction it decodes to
(R84, R86). -/
def Obligations.DecodeAgreesWithOpcodeTable : Prop :=
  ∀ w : Word, (decode w).row ∈ opTable ∧ w &&& (decode w).row.mask = (decode w).row.pattern ∧
    ∀ r ∈ opTable, w &&& r.mask = r.pattern → r = (decode w).row

/-- R82: the word is `(code << 12) | (dest << 11) | lit`, and the three fields are read back from it. -/
def Obligations.WordIsItsThreeFields : Prop :=
  ∀ (c : Code) (d : DestBit) (l : Lit),
    packWord c d l = (c.setWidth 16 <<< 12) ||| (d.setWidth 16 <<< 11) ||| l.setWidth 16 ∧
    insnCode (packWord c d l) = c ∧ insnDest (packWord c d l) = d ∧ insnLit (packWord c d l) = l

/-- Words written out from the encodings of R84, one of each family, decode to their instructions. -/
def Obligations.SpecWordsDecode : Prop :=
  decode 0b0000_0_00000100001#16 = .mmW 0x21 ∧ decode 0b0000_1_00000100010#16 = .mmM 0x22 ∧
  decode 0b0001_0_00000100001#16 = .mwm 0 0x21 ∧ decode 0b0010_0_11111111111#16 = .mlw 0 0x7FF ∧
  decode 0b0011_1_00000100001#16 = .rlmM 0x21 ∧ decode 0b0100_0_00000100000#16 = .rrmW 0x20 ∧
  decode 0b0101_1_00000100001#16 = .awmM 0x21 ∧ decode 0b1000_0_00000100000#16 = .addW 0x20 ∧
  decode 0b1001_1_00000100001#16 = .subM 0x21 ∧ decode 0b1010_1_00000110000#16 = .sms 1 0x30 ∧
  decode 0b1100_0_11111111111#16 = .gol 0 0x7FF ∧ decode 0b1111_1_11111111111#16 = .rfi 1 0x7FF

/-- The Dest bit of mwm, mlw, sms, smc, gol and the Dest and literal of gow, wfi, rfi change nothing
(R85, R87; the literal bits are decision D12). -/
def Obligations.IgnoredBitsChangeNothing : Prop :=
  ∀ (v w : Word) (s : State), insnCode v = insnCode w →
    (insnCode w ∈ [0x1#4, 0x2#4, 0xA#4, 0xB#4, 0xC#4] ∧ insnLit v = insnLit w ∨
      insnCode w ∈ [0xD#4, 0xE#4, 0xF#4]) →
    exec (decode v) s = exec (decode w) s

/-! ### The data space -/

/-- Reading a data address other than Indv follows the map of R51, R52 (D4, D5). That only a RAM word can be
unwritten is the model's choice (log 1, 3). -/
def Obligations.DataReadFollowsMap : Prop :=
  ∀ (s : State) (a : Word),
    (∀ v, a.toNat ≤ 0x1FF → Memory.read s.ram a.toNat = some v → s.dataRead a = .ok v) ∧
    (a.toNat ≤ 0x1FF → Memory.read s.ram a.toNat = none → s.dataRead a = .error .unwrittenRead) ∧
    (a.toNat = 0x200 → s.dataRead a = .ok s.w) ∧
    (a.toNat = 0x201 → s.dataRead a = .ok (if s.carry then 1 else 0)) ∧
    (a.toNat = 0x202 → s.dataRead a = .ok (if s.zero then 1 else 0)) ∧
    (a.toNat = 0x204 → s.dataRead a = .ok s.inda) ∧
    (0x205 ≤ a.toNat → s.dataRead a = .error .unmappedData)

/-- Writing a data address other than Indv changes what R51, R53 say and nothing else (D4, D5, D8). -/
def Obligations.DataWriteFollowsMap : Prop :=
  ∀ (s : State) (a v : Word),
    (a.toNat ≤ 0x1FF → ∃ m, s.dataWrite a v = .ok { s with ram := m } ∧ Memory.read m a.toNat = some v ∧
      ∀ b, b ≠ a.toNat → Memory.read m b = Memory.read s.ram b) ∧
    (a.toNat = 0x200 → s.dataWrite a v = .ok { s with w := v }) ∧
    (a.toNat = 0x201 → s.dataWrite a v = .ok { s with carry := v.getLsbD 0 }) ∧
    (a.toNat = 0x202 → s.dataWrite a v = .ok { s with zero := v.getLsbD 0 }) ∧
    (a.toNat = 0x204 → s.dataWrite a v = .ok { s with inda := v }) ∧
    (0x205 ≤ a.toNat → s.dataWrite a v = .error .unmappedData)

/-- R54: a flag location reads 0 or 1; a write keeps bit 0 and discards the rest, so the value read back is
`v & 1`; 0xFFFE clears the flag and 0x0003 sets it. -/
def Obligations.FlagLocationsHoldOneBit : Prop :=
  ∀ (s : State) (a : Word), a = 0x0201#16 ∨ a = 0x0202#16 →
    (s.dataRead a = .ok 0 ∨ s.dataRead a = .ok 1) ∧
    (∀ v, ∃ t, s.dataWrite a v = .ok t ∧ t.dataRead a = .ok (v &&& 1) ∧
      (a = 0x0201#16 → t.carry = v.getLsbD 0) ∧ (a = 0x0202#16 → t.zero = v.getLsbD 0)) ∧
    (∃ t, s.dataWrite a 0xFFFE#16 = .ok t ∧ t.dataRead a = .ok 0) ∧
    (∃ t, s.dataWrite a 0x0003#16 = .ok t ∧ t.dataRead a = .ok 1)

/-- Indv is a window on RAM[INDA], in both directions, and leaves INDA alone (R25, R55; decision D6). -/
def Obligations.IndvIsWindowOnRam : Prop :=
  ∀ (s : State) (v : Word), s.inda.toNat ≤ 0x1FF →
    s.dataRead 0x0203#16 = s.dataRead s.inda ∧
    ∃ t, s.dataWrite 0x0203#16 v = .ok t ∧ t.inda = s.inda ∧ t.dataRead 0x0203#16 = .ok v ∧
      t.dataRead s.inda = .ok v ∧
      ∀ a : Word, a ≠ s.inda → a ≠ 0x0203#16 → t.dataRead a = s.dataRead a

/-- Indv with INDA above RAM (R56, decision D7): a fault, unless INDV_REACHES_REGS is set and INDA names
one of the four registers with storage, which is then what is read and written. -/
def Obligations.IndvBeyondRam : Prop :=
  ∀ (s : State) (v : Word), 0x1FF < s.inda.toNat →
    (s.cfg.indvReachesRegs = true ∧ s.inda.toNat ∈ [0x200, 0x201, 0x202, 0x204] →
      s.dataRead 0x0203#16 = s.dataRead s.inda ∧ s.dataWrite 0x0203#16 v = s.dataWrite s.inda v) ∧
    (¬ (s.cfg.indvReachesRegs = true ∧ s.inda.toNat ∈ [0x200, 0x201, 0x202, 0x204]) →
      s.dataRead 0x0203#16 = .error .indirectTarget ∧ s.dataWrite 0x0203#16 v = .error .indirectTarget)

/-! ### When an instruction completes and when it faults -/

/-- An operand at 0x0205 or above faults, in every instruction that has one (R57, decision D5). -/
def Obligations.UnmappedOperandFaults : Prop :=
  ∀ (i : Instr) (s : State) (lit : Lit), i.operand = some lit → 0x205 ≤ lit.toNat →
    exec i s = .fault .unmappedData

/-- A Dest = 1 form that affects the flag it stores to faults: one that names it by its own address (R68,
decision D9), and, by the model's reading, one that reaches it through Indv under INDV_REACHES_REGS (log 8). -/
def Obligations.StatusWriteConflictFaults : Prop :=
  (∀ (i : Instr) (s : State) (lit : Lit), i.operand = some lit → i.stores = true →
    (lit = 0x201#11 ∧ i.affectsCarry = true ∨ lit = 0x202#11 ∧ i.affectsZero = true) →
    exec i s = .fault .statusWriteConflict) ∧
  (∀ (i : Instr) (s : State) (lit : Lit) (l : Loc), i.operand = some lit → s.operandLoc lit = .ok l →
    i.statusConflict l = true → exec i s = .fault .statusWriteConflict)

/-- An access through Indv with INDA above RAM faults, in every instruction with a mem/reg operand, unless
INDV_REACHES_REGS is set (R55, R56, decision D7). -/
def Obligations.IndirectTargetFaults : Prop :=
  ∀ (i : Instr) (s : State), i.operand = some 0x203#11 → 0x1FF < s.inda.toNat →
    s.cfg.indvReachesRegs = false → exec i s = .fault .indirectTarget

/-- Reading a RAM word nothing has written faults, directly or through Indv (R52, decision D14; log 3). -/
def Obligations.UnwrittenRamReadFaults : Prop :=
  ∀ (i : Instr) (s : State) (lit : Lit) (a : BitVec 9), i.operand = some lit → i.loads = true →
    s.operandLoc lit = .ok (.ram a) → Memory.read s.ram a.toNat = none → exec i s = .fault .unwrittenRead

/-- An instruction with a mem/reg operand completes exactly when the operand names a location, no flag has
two writers, and, if it reads the operand, the location holds a value (R57, R68, R52; D5, D9, D14). That two
writers are told by the location, through Indv too, is the model's reading (log 8; R68 writes the check on the
literal); that W and C never stop it, which the spec wants written first, is log 1. -/
def Obligations.OperandInstructionCompletesExactlyWhen : Prop :=
  ∀ (i : Instr) (s : State) (lit : Lit), i.operand = some lit →
    ((∃ t, exec i s = .next t) ↔
      ∃ l, s.operandLoc lit = .ok l ∧ i.statusConflict l = false ∧ (i.loads = true → s.readLoc l ≠ none))

/-- mlw, gol, gow, wfi and rfi make no data access and never fault (R69, D23); the others fault with one of
four reasons only (R211). That gow never faults is the model's choice, since the spec wants W written first
(R191; log 1), and so is that rfi never does (R201; log 2). -/
def Obligations.OnlyOperandsFault : Prop :=
  (∀ (i : Instr) (s : State), i.operand = none → ∃ t, exec i s = .next t) ∧
  (∀ (i : Instr) (s : State) (f : Fault), exec i s = .fault f →
    f = .unmappedData ∨ f = .statusWriteConflict ∨ f = .indirectTarget ∨ f = .unwrittenRead)

/-! ### What no instruction changes: the frames -/

/-- R122: a flag not listed for an operation keeps its value; the only other way it changes is a data write
to its own address. -/
def Obligations.FlagsPassThroughUnlessListed : Prop :=
  ∀ (i : Instr) (s t : State), exec i s = .next t →
    (i.affectsCarry = false → i.storeLoc s ≠ some .carry → t.carry = s.carry) ∧
    (i.affectsZero = false → i.storeLoc s ≠ some .zero → t.zero = s.zero)

/-- W changes only as the destination or through a store that reaches data address 0x0200 (R21). -/
def Obligations.WChangesOnlyAsDestination : Prop :=
  ∀ (i : Instr) (s t : State), exec i s = .next t → i.destIsW = false → i.storeLoc s ≠ some .wreg → t.w = s.w

/-- No instruction modifies INDA implicitly: only a store to its own address does (R24). -/
def Obligations.IndaChangesOnlyByMappedWrite : Prop :=
  ∀ (i : Instr) (s t : State), exec i s = .next t → i.storeLoc s ≠ some .inda → t.inda = s.inda

/-- Every RAM word outside the location stored to reads as before (R53, R69). -/
def Obligations.RamChangesOnlyAtStoreLocation : Prop :=
  ∀ (i : Instr) (s t : State) (a : Nat), exec i s = .next t →
    (∀ b : BitVec 9, i.storeLoc s = some (.ram b) → a ≠ b.toNat) → Memory.read t.ram a = Memory.read s.ram a

/-- Only wfi writes spc and the wait state (R28, R29); no instruction touches program memory, the
parameters or IntSource. -/
def Obligations.OnlyWfiWritesSavedPcAndWait : Prop :=
  ∀ (i : Instr) (s t : State), exec i s = .next t →
    (i.isWfi = false → t.spc = s.spc ∧ t.waiting = s.waiting) ∧
    t.prog = s.prog ∧ t.cfg = s.cfg ∧ t.intSource = s.intSource

/-- The new pc of every instruction (the table of R27; the increments are decision D20, gol's extension
D2). The sums are modulo 2^16, but one that wraps faults on the next fetch unless PROG_WORDS = 65536 (R27, D21,
U15): it never goes on at the wrapped address. One that does not wrap, and an address given whole, is fetched by
the rule of R61 alone. -/
def Obligations.PcAdvances : Prop :=
  (∀ (i : Instr) (s t : State) (base : Word), exec i s = .next t → i.pcBase s = some base →
    (t.pc.toNat < base.toNat → s.cfg.progWords < 0x10000 → t.event = none → t.waiting = false →
      step t = .fault .fetchOutOfRange) ∧
    (base.toNat ≤ t.pc.toNat ∨ s.cfg.progWords = 0x10000 → t.pcPastTop = false)) ∧
  (∀ (i : Instr) (s t : State), exec i s = .next t → i.pcBase s = none → i.isWfi = false → t.pcPastTop = false) ∧
  ∀ (i : Instr) (s t : State), exec i s = .next t →
    match i with
    | .sms _ lit => ∃ m, s.dataRead (dataAddr lit) = .ok m ∧ t.pc = if m = 0#16 then s.pc + 1 else s.pc + 2
    | .smc _ lit => ∃ m, s.dataRead (dataAddr lit) = .ok m ∧ t.pc = if m = 0#16 then s.pc + 2 else s.pc + 1
    | .gol _ lit => t.pc.toNat = lit.toNat
    | .gow _ _ => t.pc = s.w
    | .wfi _ _ => t.pc = s.pc
    | .rfi _ _ => t.pc = s.spc + 2
    | _ => t.pc = s.pc + 1

/-! ### The ALU -/

/-- R112 and R113, the two rotates of the ALU: the 17-bit quantity of Carry and operand is rotated by one, bit by
bit as the rules write it; Zero passes through and W is not used. -/
def Obligations.AluRotatesCarryAndOperand : Prop :=
  ∀ (w m : Word) (c z : Bool),
    (BitVec.cons (alu .rotL w m c z).carry (alu .rotL w m c z).result = (BitVec.cons c m).rotateLeft 1 ∧
      (alu .rotL w m c z).carry = m.getLsbD 15 ∧ (alu .rotL w m c z).result.getLsbD 0 = c ∧
      (∀ i, i < 15 → (alu .rotL w m c z).result.getLsbD (i + 1) = m.getLsbD i) ∧
      (alu .rotL w m c z).zero = z ∧ ∀ v, alu .rotL v m c z = alu .rotL w m c z) ∧
    (BitVec.cons (alu .rotR w m c z).carry (alu .rotR w m c z).result = (BitVec.cons c m).rotateRight 1 ∧
      (alu .rotR w m c z).carry = m.getLsbD 0 ∧ (alu .rotR w m c z).result.getLsbD 15 = c ∧
      (∀ i, i < 15 → (alu .rotR w m c z).result.getLsbD i = m.getLsbD (i + 1)) ∧
      (alu .rotR w m c z).zero = z ∧ ∀ v, alu .rotR v m c z = alu .rotR w m c z)

/-- R114, the Add of the ALU: result and Carry are the 17 bits of the unsigned sum of W and the operand, Zero is
judged on the 16-bit result, and the old Carry is not an input. -/
def Obligations.AluAddsToSeventeenBits : Prop :=
  ∀ (w m : Word) (c z : Bool),
    (BitVec.cons (alu .add w m c z).carry (alu .add w m c z).result).toNat = w.toNat + m.toNat ∧
    (alu .add w m c z).zero = decide ((alu .add w m c z).result = 0x0000#16) ∧
    ∀ d, alu .add w m d z = alu .add w m c z

/-! ### What each instruction computes, and that it completes -/

/-- `mm <addr>,w`: W takes the operand and Z tells whether it is 0; C passes through (R140; pc by D20). -/
def Obligations.MoveToWTestsForZero : Prop :=
  ∀ (s : State) (lit : Lit) (l : Loc) (m : Word), s.operandLoc lit = .ok l → s.readLoc l = some m →
    exec (.mmW lit) s = .next { s with
      w := m, zero := decide (m = 0#16), pc := s.pc + 1, pcPastTop := s.sumPastTop s.pc 1 }

/-- `mm <addr>,m`: the net effect is `Z <- (Mem == 0)`; no location changes value (R141; pc by D20). The
form naming the Zero flag is the conflict of R68. -/
def Obligations.MoveToSelfOnlyTestsForZero : Prop :=
  ∀ (s : State) (lit : Lit) (l : Loc) (m : Word), s.operandLoc lit = .ok l → s.readLoc l = some m → l ≠ .zero →
    ∃ t, exec (.mmM lit) s = .next t ∧ t.zero = decide (m = 0#16) ∧ t.w = s.w ∧ t.carry = s.carry ∧
      t.inda = s.inda ∧ t.pc = s.pc + 1 ∧ ∀ a, Memory.read t.ram a = Memory.read s.ram a

/-- `mwm <addr>` stores W, of which a flag location keeps bit 0, and needs nothing of what stood there
(R142, R54; the store through Indv is decision D6; pc by D20). -/
def Obligations.MoveWToMemStores : Prop :=
  ∀ (s : State) (d : DestBit) (lit : Lit) (l : Loc), s.operandLoc lit = .ok l →
    ∃ t, exec (.mwm d lit) s = .next t ∧ t.w = s.w ∧ t.pc = s.pc + 1 ∧
      (l = .carry → t.carry = s.w.getLsbD 0) ∧ (l = .zero → t.zero = s.w.getLsbD 0) ∧
      (l ≠ .carry → l ≠ .zero → t.readLoc l = some s.w)

/-- `mlw <value>`: W takes the literal read as a two's-complement number -1024..1023; no flag changes
(R143; pc by D20). -/
def Obligations.LiteralLoadsSigned : Prop :=
  ∀ (s : State) (d : DestBit) (lit : Lit),
    ∃ t, exec (.mlw d lit) s = .next t ∧ t.w.toInt = lit.toInt ∧ t.carry = s.carry ∧ t.zero = s.zero ∧
      t.pc = s.pc + 1

/-- `rlm` in both forms (R150, by the ALU's R112): the 17-bit quantity of Carry and operand is rotated left by
one and Z passes through unless the store names it. The location stored to takes the result, RAM through Indv
(decision D6) and W through 0x0200 (decision D8) included, and the Zero flag its bit 0 (R53, R54). The form naming
the Carry flag with Dest = 1 is the conflict of R68. -/
def Obligations.RotateLeftThroughCarry : Prop :=
  ∀ (s : State) (lit : Lit) (l : Loc) (m : Word), s.operandLoc lit = .ok l → s.readLoc l = some m →
    (∃ t, exec (.rlmW lit) s = .next t ∧
      BitVec.cons t.carry t.w = (BitVec.cons s.carry m).rotateLeft 1 ∧ t.zero = s.zero) ∧
    (l ≠ .carry → ∃ t r, exec (.rlmM lit) s = .next t ∧
      BitVec.cons t.carry r = (BitVec.cons s.carry m).rotateLeft 1 ∧
      (l ≠ .zero → t.readLoc l = some r ∧ t.zero = s.zero) ∧ (l = .zero → t.zero = r.getLsbD 0))

/-- `rrm` in both forms (R151, by the ALU's R113): the old Carry enters at bit 15, the bit that leaves at the
bottom becomes the new Carry, and Z passes through unless the store names it. The location stored to takes the
result, RAM through Indv (decision D6) and W through 0x0200 (decision D8) included, and the Zero flag its bit 0
(R53, R54). The form naming the Carry flag with Dest = 1 is the conflict of R68. -/
def Obligations.RotateRightThroughCarry : Prop :=
  ∀ (s : State) (lit : Lit) (l : Loc) (m : Word), s.operandLoc lit = .ok l → s.readLoc l = some m →
    (∃ t, exec (.rrmW lit) s = .next t ∧
      BitVec.cons t.carry t.w = (BitVec.cons s.carry m).rotateRight 1 ∧ t.zero = s.zero) ∧
    (l ≠ .carry → ∃ t r, exec (.rrmM lit) s = .next t ∧
      BitVec.cons t.carry r = (BitVec.cons s.carry m).rotateRight 1 ∧
      (l ≠ .zero → t.readLoc l = some r ∧ t.zero = s.zero) ∧ (l = .zero → t.zero = r.getLsbD 0))

/-- awm, owm, xwm with Dest = 0 (R160 to R162, by the template of R124 and the ALU's R116 to R118): W takes the
bitwise result, Z tells whether it is 0, C passes through. That they complete whatever W holds is the model's
choice, since the spec wants W written first (log 1). -/
def Obligations.LogicToW : Prop :=
  ∀ (s : State) (lit : Lit) (l : Loc) (m : Word), s.operandLoc lit = .ok l → s.readLoc l = some m →
    ∀ p ∈ [(Instr.awmW lit, s.w &&& m), (Instr.owmW lit, s.w ||| m), (Instr.xwmW lit, s.w ^^^ m)],
      ∃ t, exec p.1 s = .next t ∧ t.w = p.2 ∧ t.zero = decide (p.2 = 0#16) ∧ t.carry = s.carry

/-- awm, owm, xwm with Dest = 1: the operand takes the bitwise result (its bit 0, if it is the Carry flag),
Z comes from all 16 bits, C passes through unless the store names it (R160 to R162; decisions D6 through Indv
and D8 at 0x0200). The forms naming the Zero flag are the conflict of R68. -/
def Obligations.LogicToOperand : Prop :=
  ∀ (s : State) (lit : Lit) (l : Loc) (m : Word), s.operandLoc lit = .ok l → s.readLoc l = some m → l ≠ .zero →
    ∀ p ∈ [(Instr.awmM lit, s.w &&& m), (Instr.owmM lit, s.w ||| m), (Instr.xwmM lit, s.w ^^^ m)],
      ∃ t, exec p.1 s = .next t ∧ t.zero = decide (p.2 = 0#16) ∧ t.pc = s.pc + 1 ∧
        (l = .carry → t.carry = p.2.getLsbD 0) ∧ (l ≠ .carry → t.readLoc l = some p.2 ∧ t.carry = s.carry)

/-- `add` in both forms (R170, by the ALU's R114): the 17-bit unsigned sum of W and the operand; the result is its
low 16 bits, Carry its 17th, Zero whether those 16 bits are 0. The location stored to takes the result, RAM
through Indv (decision D6) and W through 0x0200 (decision D8) included. The forms naming a flag with Dest = 1 are
the conflict of R68. -/
def Obligations.AddGivesSumCarryZero : Prop :=
  ∀ (s : State) (lit : Lit) (l : Loc) (m : Word), s.operandLoc lit = .ok l → s.readLoc l = some m →
    (∃ t, exec (.addW lit) s = .next t ∧ t.w.toNat = (s.w.toNat + m.toNat) % 0x10000 ∧
      t.carry = decide (0x10000 ≤ s.w.toNat + m.toNat) ∧
      t.zero = decide ((s.w.toNat + m.toNat) % 0x10000 = 0)) ∧
    (l ≠ .carry → l ≠ .zero → ∃ t r, exec (.addM lit) s = .next t ∧ t.readLoc l = some r ∧
      r.toNat = (s.w.toNat + m.toNat) % 0x10000 ∧ t.carry = decide (0x10000 ≤ s.w.toNat + m.toNat) ∧
      t.zero = decide ((s.w.toNat + m.toNat) % 0x10000 = 0))

/-- `sub` in both forms: operand minus W modulo 2^16; Carry is the inverted unsigned borrow (decision D11),
Zero tells equality (R115, R171). The location stored to takes the result, RAM through Indv (decision D6) and W
through 0x0200 (decision D8) included. The forms naming a flag with Dest = 1 are the conflict of R68. -/
def Obligations.SubGivesDifferenceBorrowZero : Prop :=
  ∀ (s : State) (lit : Lit) (l : Loc) (m : Word), s.operandLoc lit = .ok l → s.readLoc l = some m →
    (∃ t, exec (.subW lit) s = .next t ∧ t.w.toNat = (m.toNat + (0x10000 - s.w.toNat)) % 0x10000 ∧
      t.carry = decide (s.w.toNat ≤ m.toNat) ∧ t.zero = decide (m = s.w)) ∧
    (l ≠ .carry → l ≠ .zero → ∃ t r, exec (.subM lit) s = .next t ∧ t.readLoc l = some r ∧
      r.toNat = (m.toNat + (0x10000 - s.w.toNat)) % 0x10000 ∧ t.carry = decide (s.w.toNat ≤ m.toNat) ∧
      t.zero = decide (m = s.w))

/-- For every operand value exactly one of `sms <addr>` and `smc <addr>` skips: sms on a nonzero operand, smc on
zero; a skip advances pc by 2, otherwise by 1, and nothing else changes (R180, R181; D20). The model also
notes a sum past the top of program memory, which faults at the next fetch (R27; log 16). -/
def Obligations.ExactlyOneSkipSkips : Prop :=
  ∀ (s : State) (d e : DestBit) (lit : Lit) (l : Loc) (m : Word),
    s.operandLoc lit = .ok l → s.readLoc l = some m →
    exec (.sms d lit) s = .next { s with
      pc := s.pc + (if m = 0#16 then 1 else 2), pcPastTop := s.sumPastTop s.pc (if m = 0#16 then 1 else 2) } ∧
    exec (.smc e lit) s = .next { s with
      pc := s.pc + (if m = 0#16 then 2 else 1), pcPastTop := s.sumPastTop s.pc (if m = 0#16 then 2 else 1) }

/-- gol jumps to the zero-extended literal (R190, decision D2), gow to all 16 bits of W (R191, D1; in every state,
by log 1); nothing else changes, and the old pc is saved nowhere. -/
def Obligations.JumpsChangeOnlyPc : Prop :=
  ∀ (s : State) (d : DestBit) (lit : Lit),
    (∃ a : Word, a.toNat = lit.toNat ∧ exec (.gol d lit) s = .next { s with pc := a, pcPastTop := false }) ∧
    exec (.gow d lit) s = .next { s with pc := s.w, pcPastTop := false }

/-- wfi saves its own address, waits, and leaves pc where it is; nothing else changes (R200). -/
def Obligations.WfiSavesPcAndWaits : Prop :=
  ∀ (s : State) (d : DestBit) (ign : Lit),
    exec (.wfi d ign) s = .next { s with spc := s.pc, waiting := true }

/-- rfi sets pc to the saved pc + 2 modulo 2^16 and restores nothing else (R201, D21). The model also notes a sum past
the top of program memory, which faults at the next fetch (R27; log 16). rfi itself never faults here, since spc
always holds a value (log 2). -/
def Obligations.RfiReturnsTwoPastSavedPc : Prop :=
  ∀ (s : State) (d : DestBit) (ign : Lit),
    ∃ t, exec (.rfi d ign) s = .next t ∧ t.pc.toNat = (s.spc.toNat + 2) % 0x10000 ∧
      t.pcPastTop = s.sumPastTop s.spc 2 ∧ { t with pc := s.pc, pcPastTop := s.pcPastTop } = s

/-! ### Instructions together -/

/-- Seventeen applications of `rlm <addr>,m` to a RAM word restore it and Carry: the rotation is over 17 bits
(R150, corner cases). W and Z are untouched. -/
def Obligations.SeventeenLeftRotatesRestore : Prop :=
  ∀ (s : State) (lit : Lit) (m : Word), lit.toNat ≤ 0x1FF → Memory.read s.ram lit.toNat = some m →
    ∃ t, execTimes 17 (.rlmM lit) s = .next t ∧ Memory.read t.ram lit.toNat = some m ∧ t.carry = s.carry ∧
      t.w = s.w ∧ t.zero = s.zero

/-- A right rotate undoes a left rotate of the same RAM word, Carry included (R112, R113). -/
def Obligations.RightRotateUndoesLeft : Prop :=
  ∀ (s : State) (lit : Lit) (m : Word), lit.toNat ≤ 0x1FF → Memory.read s.ram lit.toNat = some m →
    ∃ t u, exec (.rlmM lit) s = .next t ∧ exec (.rrmM lit) t = .next u ∧
      Memory.read u.ram lit.toNat = some m ∧ u.carry = s.carry

/-- After `sub <a>,w` the skips of R182 decide the unsigned comparison of the operand `m` with W (D11): each
leaves pc 2 or 1 further on, notes a sum past the top of program memory (R27; log 16), and changes nothing else. -/
def Obligations.SkipsAfterSubCompareUnsigned : Prop :=
  ∀ (s : State) (d : DestBit) (lit : Lit) (l : Loc) (m : Word),
    s.operandLoc lit = .ok l → s.readLoc l = some m →
    ∃ t, exec (.subW lit) s = .next t ∧
      exec (.sms d 0x202#11) t = .next { t with
        pc := t.pc + (if m = s.w then 2 else 1)
        pcPastTop := t.sumPastTop t.pc (if m = s.w then 2 else 1) } ∧
      exec (.smc d 0x202#11) t = .next { t with
        pc := t.pc + (if m = s.w then 1 else 2)
        pcPastTop := t.sumPastTop t.pc (if m = s.w then 1 else 2) } ∧
      exec (.sms d 0x201#11) t = .next { t with
        pc := t.pc + (if s.w.toNat ≤ m.toNat then 2 else 1)
        pcPastTop := t.sumPastTop t.pc (if s.w.toNat ≤ m.toNat then 2 else 1) } ∧
      exec (.smc d 0x201#11) t = .next { t with
        pc := t.pc + (if s.w.toNat ≤ m.toNat then 1 else 2)
        pcPastTop := t.sumPastTop t.pc (if s.w.toNat ≤ m.toNat then 1 else 2) }

/-- What mwm stores through Indv, `mm 0x203,w` loads back, with INDA in RAM (R55, decision D6). -/
def Obligations.StoreThenLoadThroughIndv : Prop :=
  ∀ (s : State) (d : DestBit) (x : Word), s.inda.toNat ≤ 0x1FF →
    ∃ t u, exec (.mwm d 0x203#11) s = .next t ∧ Memory.read t.ram s.inda.toNat = some s.w ∧
      exec (.mmW 0x203#11) { t with w := x } = .next u ∧ u.w = s.w ∧ u.inda = s.inda

/-- At data address 0x0200 the operand is W itself, so the two Dest forms of an instruction are the same
(R128; the mapped write to W is decision D8). -/
def Obligations.BothDestFormsAgreeOnW : Prop :=
  ∀ s : State, ∀ p ∈ [(Instr.mmW 0x200#11, Instr.mmM 0x200#11), (Instr.rlmW 0x200#11, Instr.rlmM 0x200#11),
      (Instr.rrmW 0x200#11, Instr.rrmM 0x200#11), (Instr.awmW 0x200#11, Instr.awmM 0x200#11),
      (Instr.owmW 0x200#11, Instr.owmM 0x200#11), (Instr.xwmW 0x200#11, Instr.xwmM 0x200#11),
      (Instr.addW 0x200#11, Instr.addM 0x200#11), (Instr.subW 0x200#11, Instr.subM 0x200#11)],
    exec p.1 s = exec p.2 s ∧ ∃ t, exec p.1 s = .next t

/-- Adding through Indv: `add 0x203,m` reads and writes RAM[INDA] and leaves INDA, while `add 0x204,m` steps
INDA itself and makes no indirect access (R128, R170; decisions D6, D20). -/
def Obligations.AddThroughIndvAndToInda : Prop :=
  ∀ (s : State) (m : Word),
    (s.inda.toNat ≤ 0x1FF → Memory.read s.ram s.inda.toNat = some m →
      ∃ t, exec (.addM 0x203#11) s = .next t ∧ Memory.read t.ram s.inda.toNat = some (m + s.w) ∧
        t.inda = s.inda ∧ t.w = s.w) ∧
    (∃ t, exec (.addM 0x204#11) s = .next t ∧ t.inda = s.inda + s.w ∧ t.ram = s.ram ∧ t.w = s.w)
end

