-- ==== Sys2Proof/Laws/Memory.lean ====
section
/-! SUPPORT. The laws of the memories: reading after writing, what a loaded list of words reads as, and that both
keep the canonical form. -/

namespace Sys2Proof.Machine

/-- Reading the address just written gives the value written. -/
@[simp] theorem Memory.read_write_same (m : Memory) (a : Nat) (v : Word) :
    Memory.read (Memory.write m a v) a = some v := by
  induction m with
  | nil => simp [Memory.write, Memory.read]
  | cons c m ih =>
    obtain ⟨k, x⟩ := c
    simp only [Memory.write]
    split
    · simp [Memory.read]
    · split
      · simp [Memory.read]
      · next h => simp [Memory.read, h, ih]

/-- A write leaves every other address as it was. -/
theorem Memory.read_write_ne (m : Memory) {a b : Nat} (v : Word) (h : b ≠ a) :
    Memory.read (Memory.write m a v) b = Memory.read m b := by
  induction m with
  | nil => simp [Memory.write, Memory.read, h]
  | cons c m ih =>
    obtain ⟨k, x⟩ := c
    simp only [Memory.write]
    split
    · simp [Memory.read, h]
    · split
      · next hk => subst hk; simp [Memory.read, h]
      · simp only [Memory.read, ih]

/-- The addresses of a memory after a write: the written one and the old ones. -/
theorem Memory.mem_write_key (m : Memory) (a : Nat) (v : Word) (c : Cell) (h : c ∈ Memory.write m a v) :
    c.1 = a ∨ c ∈ m := by
  induction m with
  | nil => simp [Memory.write] at h; simp [h]
  | cons d m ih =>
    obtain ⟨k, x⟩ := d
    simp only [Memory.write] at h
    split at h
    · simp only [List.mem_cons] at h ⊢
      rcases h with rfl | h
      · exact .inl rfl
      · exact .inr h
    · split at h
      · simp only [List.mem_cons] at h ⊢
        rcases h with rfl | h
        · exact .inl rfl
        · exact .inr (.inr h)
      · simp only [List.mem_cons] at h ⊢
        rcases h with h | h
        · exact .inr (.inl h)
        · exact (ih h).imp id .inr

/-- A write to an address inside a memory keeps its canonical form. -/
theorem Memory.wfIn_write {size : Nat} (m : Memory) (a : Nat) (v : Word) (hm : Memory.wfIn size m = true)
    (ha : a < size) : Memory.wfIn size (Memory.write m a v) = true := by
  induction m with
  | nil => simp [Memory.write, Memory.wfIn, ha]
  | cons d m ih =>
    obtain ⟨k, x⟩ := d
    simp only [Memory.wfIn, Bool.and_eq_true, decide_eq_true_eq, List.all_eq_true] at hm
    obtain ⟨⟨hk, hlt⟩, hm⟩ := hm
    simp only [Memory.write]
    split
    · next h =>
      simp only [Memory.wfIn, Bool.and_eq_true, decide_eq_true_eq, List.all_eq_true, List.mem_cons]
      refine ⟨⟨ha, ?_⟩, ⟨hk, hlt⟩, hm⟩
      rintro c (rfl | hc)
      · exact h
      · exact h.trans (hlt c hc)
    · split
      · next h =>
        subst h
        simp only [Memory.wfIn, Bool.and_eq_true, decide_eq_true_eq, List.all_eq_true]
        exact ⟨⟨ha, hlt⟩, hm⟩
      · next h1 h2 =>
        simp only [Memory.wfIn, Bool.and_eq_true, decide_eq_true_eq, List.all_eq_true]
        refine ⟨⟨hk, fun c hc => ?_⟩, ih hm⟩
        rcases Memory.mem_write_key m a v c hc with h | h
        · omega
        · exact hlt c h

/-- A write to an address inside RAM keeps the canonical form. -/
theorem Memory.wf_write (m : Memory) (a : Nat) (v : Word) (hm : Memory.wf m = true) (ha : a < ramWords) :
    Memory.wf (Memory.write m a v) = true := Memory.wfIn_write m a v hm ha

/-- The words of a list read back at their places, and nothing else does. -/
theorem Memory.read_ofWords (ws : List Word) (a b : Nat) :
    Memory.read (Memory.ofWords a ws) b = if b < a then none else ws[b - a]? := by
  induction ws generalizing a with
  | nil => simp [Memory.ofWords, Memory.read, Memory.unlisted]
  | cons w ws ih =>
    simp only [Memory.ofWords, Memory.read, ih]
    rcases Nat.lt_trichotomy b a with h | rfl | h
    · simp [h, Nat.ne_of_lt h, Nat.lt_succ_of_lt h]
    · simp
    · obtain ⟨k, rfl⟩ := Nat.exists_eq_add_of_lt h
      simp [show a + k + 1 - a = k + 1 by omega, show a + k + 1 - (a + 1) = k by omega,
        show ¬ a + k + 1 < a by omega, show a + k + 1 ≠ a by omega]

/-- Every address of the words of a list is at or beyond the first. -/
theorem Memory.le_of_mem_ofWords (ws : List Word) (a : Nat) (c : Cell) (h : c ∈ Memory.ofWords a ws) : a ≤ c.1 := by
  induction ws generalizing a with
  | nil => cases h
  | cons w ws ih =>
    rcases List.mem_cons.1 h with rfl | h
    · exact le_rfl
    · exact (Nat.le_succ a).trans (ih _ h)

/-- The words of a list are a memory in canonical form, if they fit. -/
theorem Memory.wfIn_ofWords {size : Nat} (ws : List Word) (a : Nat) (h : a + ws.length ≤ size) :
    Memory.wfIn size (Memory.ofWords a ws) = true := by
  induction ws generalizing a with
  | nil => rfl
  | cons w ws ih =>
    simp only [List.length_cons] at h
    simp only [Memory.ofWords, Memory.wfIn, Bool.and_eq_true, decide_eq_true_eq, List.all_eq_true]
    exact ⟨⟨by omega, fun c hc => Memory.le_of_mem_ofWords ws (a + 1) c hc⟩, ih (a + 1) (by omega)⟩

/-- Every store to a location keeps RAM canonical: the one operation through which RAM changes. -/
theorem State.writeLoc_wf (s : State) (l : Loc) (v : Word) (h : Memory.wf s.ram = true) :
    Memory.wf (s.writeLoc l v).ram = true := by
  cases l with
  | ram a => exact Memory.wf_write _ _ _ h (by simp only [ramWords]; omega)
  | _ => exact h

/-- A RAM word outside the location stored to reads as before. -/
theorem State.writeLoc_ram_read (s : State) (l : Loc) (v : Word) (a : Nat)
    (h : ∀ b : BitVec 9, l = .ram b → a ≠ b.toNat) :
    Memory.read (s.writeLoc l v).ram a = Memory.read s.ram a := by
  cases l with
  | ram b => exact Memory.read_write_ne _ _ (h b rfl)
  | _ => rfl

end Sys2Proof.Machine
end

