-- ==== Sys2Proof/Laws/State.lean ====
section
/-! SUPPORT. What each named state update leaves in each field: one lemma per field per update, so that no
later proof unfolds a record update. -/

namespace Sys2Proof.Machine

/-! ### `launch` -/

@[simp] theorem State.launch_cfg (l : Launch) : (State.launch l).cfg = l.cfg := rfl
@[simp] theorem State.launch_w (l : Launch) : (State.launch l).w = l.w.getD 0 := rfl
@[simp] theorem State.launch_carry (l : Launch) : (State.launch l).carry = l.carry.getD false := rfl
@[simp] theorem State.launch_zero (l : Launch) : (State.launch l).zero = l.zero.getD false := rfl
@[simp] theorem State.launch_inda (l : Launch) : (State.launch l).inda = l.inda.getD 0 := rfl
@[simp] theorem State.launch_pc (l : Launch) : (State.launch l).pc = l.cfg.resetPc := rfl
@[simp] theorem State.launch_pcPastTop (l : Launch) : (State.launch l).pcPastTop = false := rfl
@[simp] theorem State.launch_spc (l : Launch) : (State.launch l).spc = l.spc.getD 0 := rfl
@[simp] theorem State.launch_waiting (l : Launch) : (State.launch l).waiting = false := rfl
@[simp] theorem State.launch_ram (l : Launch) : (State.launch l).ram = l.ram := rfl
@[simp] theorem State.launch_prog (l : Launch) : (State.launch l).prog = Memory.ofWords 0 l.prog := rfl
@[simp] theorem State.launch_intSource (l : Launch) : (State.launch l).intSource = l.intSource := rfl

/-! ### `jump` -/

@[simp] theorem State.jump_cfg (s : State) (a : Word) : (s.jump a).cfg = s.cfg := rfl
@[simp] theorem State.jump_w (s : State) (a : Word) : (s.jump a).w = s.w := rfl
@[simp] theorem State.jump_carry (s : State) (a : Word) : (s.jump a).carry = s.carry := rfl
@[simp] theorem State.jump_zero (s : State) (a : Word) : (s.jump a).zero = s.zero := rfl
@[simp] theorem State.jump_inda (s : State) (a : Word) : (s.jump a).inda = s.inda := rfl
@[simp] theorem State.jump_pc (s : State) (a : Word) : (s.jump a).pc = a := rfl
@[simp] theorem State.jump_pcPastTop (s : State) (a : Word) : (s.jump a).pcPastTop = false := rfl
@[simp] theorem State.jump_spc (s : State) (a : Word) : (s.jump a).spc = s.spc := rfl
@[simp] theorem State.jump_waiting (s : State) (a : Word) : (s.jump a).waiting = s.waiting := rfl
@[simp] theorem State.jump_ram (s : State) (a : Word) : (s.jump a).ram = s.ram := rfl
@[simp] theorem State.jump_prog (s : State) (a : Word) : (s.jump a).prog = s.prog := rfl
@[simp] theorem State.jump_intSource (s : State) (a : Word) : (s.jump a).intSource = s.intSource := rfl

/-! ### `jumpSum` -/

@[simp] theorem State.jumpSum_cfg (s : State) (b : Word) (n : Nat) : (s.jumpSum b n).cfg = s.cfg := rfl
@[simp] theorem State.jumpSum_w (s : State) (b : Word) (n : Nat) : (s.jumpSum b n).w = s.w := rfl
@[simp] theorem State.jumpSum_carry (s : State) (b : Word) (n : Nat) : (s.jumpSum b n).carry = s.carry := rfl
@[simp] theorem State.jumpSum_zero (s : State) (b : Word) (n : Nat) : (s.jumpSum b n).zero = s.zero := rfl
@[simp] theorem State.jumpSum_inda (s : State) (b : Word) (n : Nat) : (s.jumpSum b n).inda = s.inda := rfl
@[simp] theorem State.jumpSum_pc (s : State) (b : Word) (n : Nat) : (s.jumpSum b n).pc = b + BitVec.ofNat 16 n := rfl
@[simp] theorem State.jumpSum_pcPastTop (s : State) (b : Word) (n : Nat) : (s.jumpSum b n).pcPastTop = s.sumPastTop b n := rfl
@[simp] theorem State.jumpSum_spc (s : State) (b : Word) (n : Nat) : (s.jumpSum b n).spc = s.spc := rfl
@[simp] theorem State.jumpSum_waiting (s : State) (b : Word) (n : Nat) : (s.jumpSum b n).waiting = s.waiting := rfl
@[simp] theorem State.jumpSum_ram (s : State) (b : Word) (n : Nat) : (s.jumpSum b n).ram = s.ram := rfl
@[simp] theorem State.jumpSum_prog (s : State) (b : Word) (n : Nat) : (s.jumpSum b n).prog = s.prog := rfl
@[simp] theorem State.jumpSum_intSource (s : State) (b : Word) (n : Nat) : (s.jumpSum b n).intSource = s.intSource := rfl

/-- When a sum is past the top of program memory (R27, D21). -/
theorem State.sumPastTop_iff (s : State) (b : Word) (n : Nat) :
    s.sumPastTop b n = true ↔ 0x10000 ≤ b.toNat + n ∧ s.cfg.progWords < 0x10000 := by
  simp [State.sumPastTop]

/-- Only the parameters count in it. -/
theorem State.sumPastTop_congr {s t : State} (h : s.cfg = t.cfg) (b : Word) (n : Nat) :
    s.sumPastTop b n = t.sumPastTop b n := by
  simp [State.sumPastTop, h]

/-- Of a sum of at most 2, one that wraps ends at 0 or 1, below its base. -/
theorem pcSum_wraps (b : Word) (n : Nat) (h : n ≤ 2) :
    0x10000 ≤ b.toNat + n → (b + BitVec.ofNat 16 n).toNat ≤ 1 ∧ (b + BitVec.ofNat 16 n).toNat < b.toNat := by
  simp only [BitVec.toNat_add, BitVec.toNat_ofNat]
  omega

/-! ### `advance` -/

@[simp] theorem State.advance_cfg (s : State) : (s.advance).cfg = s.cfg := rfl
@[simp] theorem State.advance_w (s : State) : (s.advance).w = s.w := rfl
@[simp] theorem State.advance_carry (s : State) : (s.advance).carry = s.carry := rfl
@[simp] theorem State.advance_zero (s : State) : (s.advance).zero = s.zero := rfl
@[simp] theorem State.advance_inda (s : State) : (s.advance).inda = s.inda := rfl
@[simp] theorem State.advance_pc (s : State) : (s.advance).pc = s.pc + 1 := rfl
@[simp] theorem State.advance_pcPastTop (s : State) : (s.advance).pcPastTop = s.sumPastTop s.pc 1 := rfl
@[simp] theorem State.advance_spc (s : State) : (s.advance).spc = s.spc := rfl
@[simp] theorem State.advance_waiting (s : State) : (s.advance).waiting = s.waiting := rfl
@[simp] theorem State.advance_ram (s : State) : (s.advance).ram = s.ram := rfl
@[simp] theorem State.advance_prog (s : State) : (s.advance).prog = s.prog := rfl
@[simp] theorem State.advance_intSource (s : State) : (s.advance).intSource = s.intSource := rfl

/-! ### `beginWait` -/

@[simp] theorem State.beginWait_cfg (s : State) : (s.beginWait).cfg = s.cfg := rfl
@[simp] theorem State.beginWait_w (s : State) : (s.beginWait).w = s.w := rfl
@[simp] theorem State.beginWait_carry (s : State) : (s.beginWait).carry = s.carry := rfl
@[simp] theorem State.beginWait_zero (s : State) : (s.beginWait).zero = s.zero := rfl
@[simp] theorem State.beginWait_inda (s : State) : (s.beginWait).inda = s.inda := rfl
@[simp] theorem State.beginWait_pc (s : State) : (s.beginWait).pc = s.pc := rfl
@[simp] theorem State.beginWait_pcPastTop (s : State) : (s.beginWait).pcPastTop = s.pcPastTop := rfl
@[simp] theorem State.beginWait_spc (s : State) : (s.beginWait).spc = s.pc := rfl
@[simp] theorem State.beginWait_waiting (s : State) : (s.beginWait).waiting = true := rfl
@[simp] theorem State.beginWait_ram (s : State) : (s.beginWait).ram = s.ram := rfl
@[simp] theorem State.beginWait_prog (s : State) : (s.beginWait).prog = s.prog := rfl
@[simp] theorem State.beginWait_intSource (s : State) : (s.beginWait).intSource = s.intSource := rfl

/-! ### `passBoundary` -/

@[simp] theorem State.passBoundary_cfg (s : State) : (s.passBoundary).cfg = s.cfg := rfl
@[simp] theorem State.passBoundary_w (s : State) : (s.passBoundary).w = s.w := rfl
@[simp] theorem State.passBoundary_carry (s : State) : (s.passBoundary).carry = s.carry := rfl
@[simp] theorem State.passBoundary_zero (s : State) : (s.passBoundary).zero = s.zero := rfl
@[simp] theorem State.passBoundary_inda (s : State) : (s.passBoundary).inda = s.inda := rfl
@[simp] theorem State.passBoundary_pc (s : State) : (s.passBoundary).pc = s.pc := rfl
@[simp] theorem State.passBoundary_pcPastTop (s : State) : (s.passBoundary).pcPastTop = s.pcPastTop := rfl
@[simp] theorem State.passBoundary_spc (s : State) : (s.passBoundary).spc = s.spc := rfl
@[simp] theorem State.passBoundary_waiting (s : State) : (s.passBoundary).waiting = s.waiting := rfl
@[simp] theorem State.passBoundary_ram (s : State) : (s.passBoundary).ram = s.ram := rfl
@[simp] theorem State.passBoundary_prog (s : State) : (s.passBoundary).prog = s.prog := rfl
@[simp] theorem State.passBoundary_intSource (s : State) : (s.passBoundary).intSource = s.intSource.tail := rfl

/-! ### `takeInterrupt` -/

@[simp] theorem State.takeInterrupt_cfg (s : State) (e : IntEntry) : (s.takeInterrupt e).cfg = s.cfg := rfl
@[simp] theorem State.takeInterrupt_w (s : State) (e : IntEntry) : (s.takeInterrupt e).w = s.w := rfl
@[simp] theorem State.takeInterrupt_carry (s : State) (e : IntEntry) : (s.takeInterrupt e).carry = s.carry := rfl
@[simp] theorem State.takeInterrupt_zero (s : State) (e : IntEntry) : (s.takeInterrupt e).zero = s.zero := rfl
@[simp] theorem State.takeInterrupt_inda (s : State) (e : IntEntry) : (s.takeInterrupt e).inda = s.inda := rfl
@[simp] theorem State.takeInterrupt_pc (s : State) (e : IntEntry) : (s.takeInterrupt e).pc = e.pc := rfl
@[simp] theorem State.takeInterrupt_pcPastTop (s : State) (e : IntEntry) : (s.takeInterrupt e).pcPastTop = false := rfl
@[simp] theorem State.takeInterrupt_spc (s : State) (e : IntEntry) : (s.takeInterrupt e).spc = e.spc := rfl
@[simp] theorem State.takeInterrupt_waiting (s : State) (e : IntEntry) : (s.takeInterrupt e).waiting = false := rfl
@[simp] theorem State.takeInterrupt_ram (s : State) (e : IntEntry) : (s.takeInterrupt e).ram = s.ram := rfl
@[simp] theorem State.takeInterrupt_prog (s : State) (e : IntEntry) : (s.takeInterrupt e).prog = s.prog := rfl
@[simp] theorem State.takeInterrupt_intSource (s : State) (e : IntEntry) : (s.takeInterrupt e).intSource = s.intSource := rfl

/-! ### `returnFromInterrupt` -/

@[simp] theorem State.returnFromInterrupt_cfg (s : State) : (s.returnFromInterrupt).cfg = s.cfg := rfl
@[simp] theorem State.returnFromInterrupt_w (s : State) : (s.returnFromInterrupt).w = s.w := rfl
@[simp] theorem State.returnFromInterrupt_carry (s : State) : (s.returnFromInterrupt).carry = s.carry := rfl
@[simp] theorem State.returnFromInterrupt_zero (s : State) : (s.returnFromInterrupt).zero = s.zero := rfl
@[simp] theorem State.returnFromInterrupt_inda (s : State) : (s.returnFromInterrupt).inda = s.inda := rfl
@[simp] theorem State.returnFromInterrupt_pc (s : State) : (s.returnFromInterrupt).pc = s.spc + 2 := rfl
@[simp] theorem State.returnFromInterrupt_pcPastTop (s : State) : (s.returnFromInterrupt).pcPastTop = s.sumPastTop s.spc 2 := rfl
@[simp] theorem State.returnFromInterrupt_spc (s : State) : (s.returnFromInterrupt).spc = s.spc := rfl
@[simp] theorem State.returnFromInterrupt_waiting (s : State) : (s.returnFromInterrupt).waiting = s.waiting := rfl
@[simp] theorem State.returnFromInterrupt_ram (s : State) : (s.returnFromInterrupt).ram = s.ram := rfl
@[simp] theorem State.returnFromInterrupt_prog (s : State) : (s.returnFromInterrupt).prog = s.prog := rfl
@[simp] theorem State.returnFromInterrupt_intSource (s : State) : (s.returnFromInterrupt).intSource = s.intSource := rfl

/-! ### `setFlags` -/

@[simp] theorem State.setFlags_cfg (s : State) (op : AluOp) (out : AluOut) : (s.setFlags op out).cfg = s.cfg := rfl
@[simp] theorem State.setFlags_w (s : State) (op : AluOp) (out : AluOut) : (s.setFlags op out).w = s.w := rfl
@[simp] theorem State.setFlags_carry (s : State) (op : AluOp) (out : AluOut) : (s.setFlags op out).carry = (if op.affectsCarry then out.carry else s.carry) := rfl
@[simp] theorem State.setFlags_zero (s : State) (op : AluOp) (out : AluOut) : (s.setFlags op out).zero = (if op.affectsZero then out.zero else s.zero) := rfl
@[simp] theorem State.setFlags_inda (s : State) (op : AluOp) (out : AluOut) : (s.setFlags op out).inda = s.inda := rfl
@[simp] theorem State.setFlags_pc (s : State) (op : AluOp) (out : AluOut) : (s.setFlags op out).pc = s.pc := rfl
@[simp] theorem State.setFlags_pcPastTop (s : State) (op : AluOp) (out : AluOut) : (s.setFlags op out).pcPastTop = s.pcPastTop := rfl
@[simp] theorem State.setFlags_spc (s : State) (op : AluOp) (out : AluOut) : (s.setFlags op out).spc = s.spc := rfl
@[simp] theorem State.setFlags_waiting (s : State) (op : AluOp) (out : AluOut) : (s.setFlags op out).waiting = s.waiting := rfl
@[simp] theorem State.setFlags_ram (s : State) (op : AluOp) (out : AluOut) : (s.setFlags op out).ram = s.ram := rfl
@[simp] theorem State.setFlags_prog (s : State) (op : AluOp) (out : AluOut) : (s.setFlags op out).prog = s.prog := rfl
@[simp] theorem State.setFlags_intSource (s : State) (op : AluOp) (out : AluOut) : (s.setFlags op out).intSource = s.intSource := rfl

/-! ### `advanceSkip` -/

@[simp] theorem State.advanceSkip_cfg (s : State) (skip : Bool) :
    (s.advanceSkip skip).cfg = s.cfg := by cases skip <;> rfl
@[simp] theorem State.advanceSkip_w (s : State) (skip : Bool) :
    (s.advanceSkip skip).w = s.w := by cases skip <;> rfl
@[simp] theorem State.advanceSkip_carry (s : State) (skip : Bool) :
    (s.advanceSkip skip).carry = s.carry := by cases skip <;> rfl
@[simp] theorem State.advanceSkip_zero (s : State) (skip : Bool) :
    (s.advanceSkip skip).zero = s.zero := by cases skip <;> rfl
@[simp] theorem State.advanceSkip_inda (s : State) (skip : Bool) :
    (s.advanceSkip skip).inda = s.inda := by cases skip <;> rfl
@[simp] theorem State.advanceSkip_pc (s : State) (skip : Bool) :
    (s.advanceSkip skip).pc = (if skip then s.pc + 2 else s.pc + 1) := by cases skip <;> rfl
@[simp] theorem State.advanceSkip_pcPastTop (s : State) (skip : Bool) :
    (s.advanceSkip skip).pcPastTop = s.sumPastTop s.pc (if skip then 2 else 1) := rfl
@[simp] theorem State.advanceSkip_spc (s : State) (skip : Bool) :
    (s.advanceSkip skip).spc = s.spc := by cases skip <;> rfl
@[simp] theorem State.advanceSkip_waiting (s : State) (skip : Bool) :
    (s.advanceSkip skip).waiting = s.waiting := by cases skip <;> rfl
@[simp] theorem State.advanceSkip_ram (s : State) (skip : Bool) :
    (s.advanceSkip skip).ram = s.ram := by cases skip <;> rfl
@[simp] theorem State.advanceSkip_prog (s : State) (skip : Bool) :
    (s.advanceSkip skip).prog = s.prog := by cases skip <;> rfl
@[simp] theorem State.advanceSkip_intSource (s : State) (skip : Bool) :
    (s.advanceSkip skip).intSource = s.intSource := by cases skip <;> rfl

/-! ### `writeLoc` -/

@[simp] theorem State.writeLoc_cfg (s : State) (l : Loc) (v : Word) : (s.writeLoc l v).cfg = s.cfg := by
  cases l <;> rfl
@[simp] theorem State.writeLoc_pc (s : State) (l : Loc) (v : Word) : (s.writeLoc l v).pc = s.pc := by
  cases l <;> rfl
@[simp] theorem State.writeLoc_pcPastTop (s : State) (l : Loc) (v : Word) :
    (s.writeLoc l v).pcPastTop = s.pcPastTop := by cases l <;> rfl
@[simp] theorem State.writeLoc_spc (s : State) (l : Loc) (v : Word) : (s.writeLoc l v).spc = s.spc := by
  cases l <;> rfl
@[simp] theorem State.writeLoc_waiting (s : State) (l : Loc) (v : Word) : (s.writeLoc l v).waiting = s.waiting := by
  cases l <;> rfl
@[simp] theorem State.writeLoc_prog (s : State) (l : Loc) (v : Word) : (s.writeLoc l v).prog = s.prog := by
  cases l <;> rfl
@[simp] theorem State.writeLoc_intSource (s : State) (l : Loc) (v : Word) : (s.writeLoc l v).intSource = s.intSource := by
  cases l <;> rfl
@[simp] theorem State.writeLoc_w (s : State) (l : Loc) (v : Word) :
    (s.writeLoc l v).w = if l = .wreg then v else s.w := by
  cases l <;> simp [State.writeLoc]
@[simp] theorem State.writeLoc_carry (s : State) (l : Loc) (v : Word) :
    (s.writeLoc l v).carry = if l = .carry then v.getLsbD 0 else s.carry := by
  cases l <;> simp [State.writeLoc]
@[simp] theorem State.writeLoc_zero (s : State) (l : Loc) (v : Word) :
    (s.writeLoc l v).zero = if l = .zero then v.getLsbD 0 else s.zero := by
  cases l <;> simp [State.writeLoc]
@[simp] theorem State.writeLoc_inda (s : State) (l : Loc) (v : Word) :
    (s.writeLoc l v).inda = if l = .inda then v else s.inda := by
  cases l <;> simp [State.writeLoc]
@[simp] theorem State.writeLoc_ram (s : State) (a : BitVec 9) (v : Word) :
    (s.writeLoc (.ram a) v).ram = Memory.write s.ram a.toNat v := rfl
/-- A store to a register leaves RAM alone. -/
theorem State.writeLoc_ram_of_ne (s : State) (l : Loc) (v : Word) (h : ∀ a, l ≠ .ram a) :
    (s.writeLoc l v).ram = s.ram := by
  cases l <;> first | rfl | exact absurd rfl (h _)

/-! ### `putResult` -/

@[simp] theorem State.putResult_toW (s : State) (l : Loc) (r : Word) : s.putResult .toW l r = { s with w := r } := rfl
@[simp] theorem State.putResult_toM (s : State) (l : Loc) (r : Word) : s.putResult .toM l r = s.writeLoc l r := rfl

end Sys2Proof.Machine
end

