-- ==== Sys2Proof/Laws/Operations.lean ====
section
/-! SUPPORT. For each shared operation, what it can do, said once: naming a location, reading and writing
it, the ALU template and the skip template. -/

namespace Sys2Proof.Machine

/-- A location just written reads back the value, cut to bit 0 for a flag (R53, R54). -/
theorem State.readLoc_writeLoc (s : State) (l : Loc) (v : Word) :
    (s.writeLoc l v).readLoc l =
      some (if l = .carry ∨ l = .zero then flagWord (v.getLsbD 0) else v) := by
  cases l <;> simp [State.readLoc, State.writeLoc]

/-- Distinct locations do not alias (R37). -/
theorem State.readLoc_writeLoc_ne (s : State) {l k : Loc} (v : Word) (h : k ≠ l) :
    (s.writeLoc l v).readLoc k = s.readLoc k := by
  cases l <;> cases k <;>
    first
    | exact absurd rfl h
    | rfl
    | (simp only [State.readLoc, State.writeLoc]
       refine Memory.read_write_ne _ _ fun e => h ?_
       rw [BitVec.eq_of_toNat_eq e])

/-- Only a RAM word can be unwritten (log 1, log 3). -/
theorem State.readLoc_eq_none (s : State) (l : Loc) :
    s.readLoc l = none ↔ ∃ a, l = .ram a ∧ Memory.read s.ram a.toNat = none := by
  cases l <;> simp [State.readLoc]

/-- A direct RAM address names its RAM word (R51). -/
theorem State.resolve_ram (s : State) (a : Word) (h : a.toNat ≤ 0x1FF) :
    s.resolve a = .ok (.ram (a.setWidth 9)) := by
  have h1 : a ≤ 0x01FF#16 := by simpa [BitVec.le_def] using h
  have h2 : a ≠ 0x0203#16 := by rintro rfl; simp at h
  simp [State.resolve, storageAt, h1, h2]

/-- Everything the map of R51 can answer: a RAM word, or one of the four registers with storage. -/
theorem storageAt_eq_some {a : Word} {l : Loc} (h : storageAt a = some l) :
    (a.toNat ≤ 0x1FF ∧ l = .ram (a.setWidth 9)) ∨ (a = 0x0200#16 ∧ l = .wreg) ∨ (a = 0x0201#16 ∧ l = .carry) ∨
      (a = 0x0202#16 ∧ l = .zero) ∨ (a = 0x0204#16 ∧ l = .inda) := by
  unfold storageAt at h
  (repeat' split at h) <;> simp_all [BitVec.le_def]

/-- Inda in RAM names its RAM word (R55). -/
theorem State.indTarget_ram (s : State) (h : s.inda.toNat ≤ 0x1FF) :
    s.indTarget = .ok (.ram (s.inda.setWidth 9)) := by
  have h1 : s.inda ≤ 0x01FF#16 := by simpa [BitVec.le_def] using h
  simp [State.indTarget, storageAt, h1]

/-- Everything the Indv window can reach: RAM[INDA], or with INDV_REACHES_REGS the register INDA names
(R55, R56). -/
theorem State.indTarget_eq_ok {s : State} {l : Loc} (h : s.indTarget = .ok l) :
    storageAt s.inda = some l ∧ (s.inda.toNat ≤ 0x1FF ∨ s.cfg.indvReachesRegs = true) := by
  unfold State.indTarget at h
  split at h
  · next a ha =>
    injection h with h
    subst h
    rcases storageAt_eq_some ha with ⟨h, _⟩ | ⟨_, h⟩ | ⟨_, h⟩ | ⟨_, h⟩ | ⟨_, h⟩
    · exact ⟨ha, .inl h⟩
    all_goals cases h
  · next k hk =>
    split at h
    · next hc => injection h with h; subst h; exact ⟨hk, .inr hc⟩
    · cases h
  · cases h

/-- A RAM word's key is its data address (R51). -/
theorem toNat_ramKey {a : Word} (h : a.toNat ≤ 0x1FF) : (a.setWidth 9).toNat = a.toNat := by
  simp only [BitVec.toNat_setWidth]
  omega

/-- An address above the mapped registers names nothing (R57). -/
theorem State.resolve_unmapped (s : State) (a : Word) (h : 0x205 ≤ a.toNat) :
    s.resolve a = .error .unmappedData := by
  have h1 : ¬ a ≤ 0x01FF#16 := by simp [BitVec.le_def]; omega
  have hne : ∀ b : Word, b.toNat < 0x205 → a ≠ b := by rintro b hb rfl; omega
  simp [State.resolve, storageAt, h1, hne]

@[simp] theorem State.resolve_wreg (s : State) : s.resolve 0x0200#16 = .ok .wreg := rfl
@[simp] theorem State.resolve_carry (s : State) : s.resolve 0x0201#16 = .ok .carry := rfl
@[simp] theorem State.resolve_zero (s : State) : s.resolve 0x0202#16 = .ok .zero := rfl
@[simp] theorem State.resolve_indv (s : State) : s.resolve 0x0203#16 = s.indTarget := rfl
@[simp] theorem State.resolve_inda (s : State) : s.resolve 0x0204#16 = .ok .inda := rfl

/-- If the ALU template answers a next state, its operand was found and read, no flag had two writers, and
the state is the ALU effect; it has no other way to go on (R124). -/
theorem execAlu_next {op : AluOp} {dest : Dest} {lit : Lit} {s t : State} (h : execAlu op dest lit s = .next t) :
    ∃ l m, s.operandLoc lit = .ok l ∧ s.readLoc l = some m ∧ writesAffectedFlag op dest l = false ∧
      t = s.aluEffect op dest l m := by
  unfold execAlu at h
  split at h
  · cases h
  · next l hl =>
    split at h
    · cases h
    · next hc =>
      split at h
      · cases h
      · next m hm => exact ⟨l, m, hl, hm, by simpa using hc, by injection h with h; exact h.symm⟩

/-- When the ALU template completes (R124): the converse of `execAlu_next`. -/
theorem execAlu_eq_next {op : AluOp} {dest : Dest} {lit : Lit} {s : State} {l : Loc} {m : Word}
    (hl : s.operandLoc lit = .ok l) (hm : s.readLoc l = some m) (hc : writesAffectedFlag op dest l = false) :
    execAlu op dest lit s = .next (s.aluEffect op dest l m) := by
  simp [execAlu, hl, hm, hc]

/-- A Dest = 0 form never has two writers (R68). -/
@[simp] theorem writesAffectedFlag_toW (op : AluOp) (l : Loc) : writesAffectedFlag op .toW l = false := by
  cases l <;> rfl

/-- The ALU effect with Dest = 0: W, the affected flags and pc, nothing else (R124). -/
theorem State.aluEffect_toW (s : State) (op : AluOp) (l : Loc) (m : Word) :
    s.aluEffect op .toW l m =
      { s with
        w := aluResult op s.w m s.carry
        carry := if op.affectsCarry then aluCarry op s.w m s.carry else s.carry
        zero := if op.affectsZero then zeroOf (aluResult op s.w m s.carry) else s.zero
        pc := s.pc + 1
        pcPastTop := s.sumPastTop s.pc 1 } := by
  cases op <;> rfl

/-- The ALU effect with Dest = 1: the store, then the affected flags, then pc (R124). -/
theorem State.aluEffect_toM (s : State) (op : AluOp) (l : Loc) (m : Word) :
    s.aluEffect op .toM l m =
      { s.writeLoc l (aluResult op s.w m s.carry) with
        carry := if op.affectsCarry then aluCarry op s.w m s.carry
          else (s.writeLoc l (aluResult op s.w m s.carry)).carry
        zero := if op.affectsZero then zeroOf (aluResult op s.w m s.carry)
          else (s.writeLoc l (aluResult op s.w m s.carry)).zero
        pc := s.pc + 1
        pcPastTop := s.sumPastTop s.pc 1 } := by
  cases op <;> simp [State.aluEffect, alu, State.setFlags, State.advance, State.jumpSum, State.sumPastTop, AluOp.affectsCarry,
    AluOp.affectsZero]

/-- If the skip template answers a next state, its operand was read and only pc moved (R180, R181). -/
theorem execSkip_next {op : AluOp} {lit : Lit} {s t : State} (h : execSkip op lit s = .next t) :
    ∃ m, s.dataRead (dataAddr lit) = .ok m ∧ t = s.advanceSkip (aluSkip op m) := by
  unfold execSkip at h
  split at h
  · cases h
  · next m hm => exact ⟨m, hm, by injection h with h; exact h.symm⟩

/-- When the skip template completes: the converse of `execSkip_next`. -/
theorem execSkip_eq_next {op : AluOp} {lit : Lit} {s : State} {m : Word} (h : s.dataRead (dataAddr lit) = .ok m) :
    execSkip op lit s = .next (s.advanceSkip (aluSkip op m)) := by
  simp [execSkip, h, alu]

/-- Reading a data address succeeds exactly at a location that holds a value (R52). -/
theorem State.dataRead_eq_ok (s : State) (a v : Word) :
    s.dataRead a = .ok v ↔ ∃ l, s.resolve a = .ok l ∧ s.readLoc l = some v := by
  unfold State.dataRead State.readFound
  constructor
  · intro h
    split at h
    · next l hl =>
      split at h
      · next x hx => injection h with h; exact ⟨l, hl, h ▸ hx⟩
      · cases h
    · cases h
  · rintro ⟨l, hl, hm⟩
    simp [hl, hm]

/-- Writing a data address succeeds exactly where the address names a location (R53). -/
theorem State.dataWrite_eq_ok (s t : State) (a v : Word) :
    s.dataWrite a v = .ok t ↔ ∃ l, s.resolve a = .ok l ∧ t = s.writeLoc l v := by
  unfold State.dataWrite
  constructor
  · intro h
    split at h
    · next l hl => injection h with h; exact ⟨l, hl, h.symm⟩
    · cases h
  · rintro ⟨l, hl, rfl⟩
    simp [hl]

/-- When mwm answers a next state, its target was found and W was stored there (R142). -/
theorem execMwm_next {dest : DestBit} {lit : Lit} {s t : State}
    (h : execMwm dest lit s = .next t) :
    ∃ l, s.operandLoc lit = .ok l ∧ t = (s.writeLoc l s.w).advance := by
  unfold execMwm at h
  split at h
  · cases h
  · next u hu =>
    obtain ⟨l, hl, rfl⟩ := (State.dataWrite_eq_ok _ _ _ _).mp hu
    exact ⟨l, hl, by injection h with h; exact h.symm⟩

end Sys2Proof.Machine
end

