-- ==== Sys2Proof/Laws/PerInstr.lean ====
section
/-! SUPPORT. Statements about every instruction as syntax, one lemma per constructor. TableRow: the encoding of
an instruction stands in its row of the opcode table (30_encoding.md R84). -/

namespace Sys2Proof.Laws

/-- Under the row's mask an encoded word is the row's match, whatever the operands: by bits. -/
theorem packWord_masked (code : Code) (dest : DestBit) (lit : Lit) :
    packWord code dest lit &&& 0xF800 = packWord code dest 0 ∧
      packWord code dest lit &&& 0xF000 = packWord code 0 0 := by
  revert code dest lit
  have key : ∀ (c : Code) (d : DestBit), (c ++ d ++ (0 : Lit) : Word) &&& 0xF000 = c ++ (0 : DestBit) ++ (0 : Lit) ∧
      (0xF800 : Word) = (0xF : Code) ++ (1 : DestBit) ++ (0 : Lit) ∧
      (0xF000 : Word) = (0xF : Code) ++ (0 : DestBit) ++ (0 : Lit) := by decide
  intro code dest lit
  have h1 := (key code dest).2.1
  have h2 := (key code dest).2.2
  unfold packWord
  rw [h1, h2]
  constructor
  · rw [BitVec.and_append, BitVec.and_append]
    congr 1
    · congr 1
      · revert code; decide
      · revert dest; decide
    · simp
  · rw [BitVec.and_append, BitVec.and_append]
    congr 1
    · congr 1
      · revert code; decide
      · revert dest; decide
    · simp

/-- The instruction's word, under its row's mask, is its row's match, and the row is in the table. -/
def TableRow.Statement (i : Instr) : Prop :=
  encode i &&& i.row.mask = i.row.pattern ∧ i.row ∈ opTable

theorem TableRow.mmW (lit : Lit) : TableRow.Statement (.mmW lit) :=
  ⟨(packWord_masked _ _ _).1, by simp [opTable, Instr.row]⟩

theorem TableRow.mmM (lit : Lit) : TableRow.Statement (.mmM lit) :=
  ⟨(packWord_masked _ _ _).1, by simp [opTable, Instr.row]⟩

theorem TableRow.mwm (dest : DestBit) (lit : Lit) : TableRow.Statement (.mwm dest lit) :=
  ⟨(packWord_masked _ _ _).2, by simp [opTable, Instr.row]⟩

theorem TableRow.mlw (dest : DestBit) (lit : Lit) : TableRow.Statement (.mlw dest lit) :=
  ⟨(packWord_masked _ _ _).2, by simp [opTable, Instr.row]⟩

theorem TableRow.rlmW (lit : Lit) : TableRow.Statement (.rlmW lit) :=
  ⟨(packWord_masked _ _ _).1, by simp [opTable, Instr.row]⟩

theorem TableRow.rlmM (lit : Lit) : TableRow.Statement (.rlmM lit) :=
  ⟨(packWord_masked _ _ _).1, by simp [opTable, Instr.row]⟩

theorem TableRow.rrmW (lit : Lit) : TableRow.Statement (.rrmW lit) :=
  ⟨(packWord_masked _ _ _).1, by simp [opTable, Instr.row]⟩

theorem TableRow.rrmM (lit : Lit) : TableRow.Statement (.rrmM lit) :=
  ⟨(packWord_masked _ _ _).1, by simp [opTable, Instr.row]⟩

theorem TableRow.awmW (lit : Lit) : TableRow.Statement (.awmW lit) :=
  ⟨(packWord_masked _ _ _).1, by simp [opTable, Instr.row]⟩

theorem TableRow.awmM (lit : Lit) : TableRow.Statement (.awmM lit) :=
  ⟨(packWord_masked _ _ _).1, by simp [opTable, Instr.row]⟩

theorem TableRow.owmW (lit : Lit) : TableRow.Statement (.owmW lit) :=
  ⟨(packWord_masked _ _ _).1, by simp [opTable, Instr.row]⟩

theorem TableRow.owmM (lit : Lit) : TableRow.Statement (.owmM lit) :=
  ⟨(packWord_masked _ _ _).1, by simp [opTable, Instr.row]⟩

theorem TableRow.xwmW (lit : Lit) : TableRow.Statement (.xwmW lit) :=
  ⟨(packWord_masked _ _ _).1, by simp [opTable, Instr.row]⟩

theorem TableRow.xwmM (lit : Lit) : TableRow.Statement (.xwmM lit) :=
  ⟨(packWord_masked _ _ _).1, by simp [opTable, Instr.row]⟩

theorem TableRow.addW (lit : Lit) : TableRow.Statement (.addW lit) :=
  ⟨(packWord_masked _ _ _).1, by simp [opTable, Instr.row]⟩

theorem TableRow.addM (lit : Lit) : TableRow.Statement (.addM lit) :=
  ⟨(packWord_masked _ _ _).1, by simp [opTable, Instr.row]⟩

theorem TableRow.subW (lit : Lit) : TableRow.Statement (.subW lit) :=
  ⟨(packWord_masked _ _ _).1, by simp [opTable, Instr.row]⟩

theorem TableRow.subM (lit : Lit) : TableRow.Statement (.subM lit) :=
  ⟨(packWord_masked _ _ _).1, by simp [opTable, Instr.row]⟩

theorem TableRow.sms (dest : DestBit) (lit : Lit) : TableRow.Statement (.sms dest lit) :=
  ⟨(packWord_masked _ _ _).2, by simp [opTable, Instr.row]⟩

theorem TableRow.smc (dest : DestBit) (lit : Lit) : TableRow.Statement (.smc dest lit) :=
  ⟨(packWord_masked _ _ _).2, by simp [opTable, Instr.row]⟩

theorem TableRow.gol (dest : DestBit) (lit : Lit) : TableRow.Statement (.gol dest lit) :=
  ⟨(packWord_masked _ _ _).2, by simp [opTable, Instr.row]⟩

theorem TableRow.gow (dest : DestBit) (ign : Lit) : TableRow.Statement (.gow dest ign) :=
  ⟨(packWord_masked _ _ _).2, by simp [opTable, Instr.row]⟩

theorem TableRow.wfi (dest : DestBit) (ign : Lit) : TableRow.Statement (.wfi dest ign) :=
  ⟨(packWord_masked _ _ _).2, by simp [opTable, Instr.row]⟩

theorem TableRow.rfi (dest : DestBit) (ign : Lit) : TableRow.Statement (.rfi dest ign) :=
  ⟨(packWord_masked _ _ _).2, by simp [opTable, Instr.row]⟩

end Sys2Proof.Laws
end

