-- ==== Sys2Proof/Laws/Step.lean ====
section
/-! SUPPORT. What one step can do, said once: every claim about a step starts from these cases. -/

namespace Sys2Proof.Machine

/-- If a step answers a next state, an interrupt was taken, or a waiting core kept its state, or the word at
pc was fetched and its instruction executed (R123, R214, R215). -/
theorem step_next {s t : State} (h : step s = .next t) :
    (∃ e, s.event = some e ∧ t = s.passBoundary.takeInterrupt e) ∨
    (s.event = none ∧ s.waiting = true ∧ t = s.passBoundary) ∨
    (s.event = none ∧ s.waiting = false ∧ ∃ w, s.fetch = .ok w ∧ exec (decode w) s.passBoundary = .next t) := by
  unfold step at h
  split at h
  · next e he => exact .inl ⟨e, he, by injection h with h; exact h.symm⟩
  · next he =>
    split at h
    · next hw => exact .inr (.inl ⟨he, hw, by injection h with h; exact h.symm⟩)
    · next hw =>
      split at h
      · cases h
      · next w hf => exact .inr (.inr ⟨he, by simpa using hw, w, hf, h⟩)

/-- Inside program memory a supplied word is what is fetched, at a pc that has not wrapped past the top
(R61, R27). -/
theorem State.fetch_ok {s : State} {w : Word} :
    s.fetch = .ok w ↔ s.pc.toNat < s.cfg.progWords ∧ s.pcPastTop = false ∧
      Memory.read s.prog s.pc.toNat = some w := by
  unfold State.fetch
  split
  · next h =>
    rcases h with h | h
    · simp [Nat.not_lt.2 h]
    · simp [h]
  · next h =>
    obtain ⟨hp, hb⟩ := not_or.1 h
    cases hr : Memory.read s.prog s.pc.toNat <;> simp [Nat.lt_of_not_le hp, hb]

/-- A fetch is out of range exactly when pc is at or beyond PROG_WORDS or wrapped past it (R61, R27). -/
theorem State.fetch_outOfRange {s : State} : s.fetch = .error .fetchOutOfRange ↔
    s.cfg.progWords ≤ s.pc.toNat ∨ s.pcPastTop = true := by
  unfold State.fetch
  split
  · next h => simp [h]
  · next h => cases hr : Memory.read s.prog s.pc.toNat <;> simp [h]

/-- How an instruction leaves pc (R27): as a sum of 1 or 2 on its base, noting whether that passed the top of
program memory; or as an address given whole, which never did; or, for wfi, as it was. -/
theorem exec_pc {i : Instr} {s t : State} (h : exec i s = .next t) :
    match i.pcBase s with
    | some b => ∃ n, 1 ≤ n ∧ n ≤ 2 ∧ t.pc = b + BitVec.ofNat 16 n ∧ t.pcPastTop = s.sumPastTop b n
    | none => t.pcPastTop = if i.isWfi then s.pcPastTop else false := by
  cases i <;> simp only [exec, execMmW, execMmM, execRlmW, execRlmM, execRrmW, execRrmM, execAwmW, execAwmM,
    execOwmW, execOwmM, execXwmW, execXwmM, execAddW, execAddM, execSubW, execSubM, execSms, execSmc,
    Instr.pcBase, Instr.isWfi] at h ⊢
  case mwm =>
    obtain ⟨l, hl, rfl⟩ := execMwm_next h
    exact ⟨1, le_rfl, by decide, by simp, by simpa using State.sumPastTop_congr (by simp) _ _⟩
  case mlw => cases h; exact ⟨1, le_rfl, by decide, rfl, rfl⟩
  case sms => obtain ⟨m, hm, rfl⟩ := execSkip_next h; exact ⟨_, by split <;> decide, by split <;> decide, rfl, rfl⟩
  case smc => obtain ⟨m, hm, rfl⟩ := execSkip_next h; exact ⟨_, by split <;> decide, by split <;> decide, rfl, rfl⟩
  case gol => cases h; rfl
  case gow => cases h; rfl
  case wfi => cases h; rfl
  case rfi => cases h; exact ⟨2, by decide, le_rfl, rfl, rfl⟩
  all_goals
    obtain ⟨l, m, hl, _, hc, rfl⟩ := execAlu_next h
    refine ⟨1, le_rfl, by decide, ?_⟩
    first | rw [State.aluEffect_toW] | rw [State.aluEffect_toM]
    exact ⟨rfl, rfl⟩

/-- A run of the machine begins with a step. -/
theorem run_of_step {s t : State} (h : step s = .next t) (n : Nat) :
    Host.Core.run Sys2Proof.core (n + 1) s = Host.Core.run Sys2Proof.core n t := by
  have h' : Sys2Proof.core.step s = .next t := h
  simp only [Host.Core.run, h']

/-- With nothing to deliver, passing a boundary changes nothing. -/
theorem State.passBoundary_of_nil {s : State} (h : s.intSource = []) : s.passBoundary = s := by
  cases s
  simp_all [State.passBoundary]

/-- Passing a boundary at which nothing is delivered leaves nothing to deliver. -/
theorem State.NoFurtherEvent.passBoundary {s : State} (h : s.NoFurtherEvent) : s.passBoundary.NoFurtherEvent :=
  fun e he => h e (List.mem_of_mem_tail he)

/-- If IntSource delivers no further event, it delivers none at this boundary. -/
theorem State.NoFurtherEvent.event {s : State} (h : s.NoFurtherEvent) : s.event = none := by
  unfold State.event
  cases hl : s.intSource with
  | nil => rfl
  | cons e l => simp [h e (hl ▸ List.mem_cons_self)]

/-- A step of a stopped machine passes the boundary and nothing else, and the machine is stopped still. -/
theorem State.Stopped.step {s : State} (h : s.Stopped) :
    Machine.step s = .next s.passBoundary ∧ s.passBoundary.Stopped :=
  ⟨by simp [Machine.step, h.2.event, h.1], h.1, h.2.passBoundary⟩

/-- With nothing to deliver there is no event. -/
theorem State.event_of_nil {s : State} (h : s.intSource = []) : s.event = none := by
  simp [State.event, h]

end Sys2Proof.Machine
end

