-- ==== Sys2Proof/Tests/Slice0.lean ====
section
/-! SUPPORT. The model's own tests: words written out from the encodings of 30_encoding.md R84, vectors of
95_test_vectors.md (ids in the comments), and a witness for the hypotheses of each statement. -/

namespace Sys2Proof.Tests

open Sys2Proof Sys2Proof.Machine

/-- A field of the next state, if there is one. -/
def after {α : Type} (o : Host.Outcome State Fault Refusal) (f : State → α) : Option α :=
  match o with
  | .next s => some (f s)
  | .fault _ => none
  | .refused _ => none

/-- The fault, if there is one. -/
def faultOf (o : Host.Outcome State Fault Refusal) : Option Fault :=
  match o with
  | .next _ => none
  | .fault f => some f
  | .refused _ => none

/-- A small state at pc = 0x0010: W, C, Z, INDA and RAM given, nothing loaded. -/
def st (w : Word) (c z : Bool) (inda : Word) (ram : Memory) : State :=
  { State.reset with w := w, carry := c, zero := z, inda := inda, pc := 0x0010, ram := ram }

/-- INDV_REACHES_REGS is set, everything else as by default. -/
def regCfg : Config := { Config.standard with indvReachesRegs := true }

/-! ### Well-formedness: an ill-formed term for each check, and a well-formed one -/

theorem test_wf_refuses_mwm : Instr.wellFormed (.mwm 1 0x21) = false := by decide
theorem test_wf_refuses_mlw : Instr.wellFormed (.mlw 1 0x21) = false := by decide
theorem test_wf_refuses_sms : Instr.wellFormed (.sms 1 0x21) = false := by decide
theorem test_wf_refuses_smc : Instr.wellFormed (.smc 1 0x21) = false := by decide
theorem test_wf_refuses_gol : Instr.wellFormed (.gol 1 0x21) = false := by decide
theorem test_wf_refuses_gow_dest : Instr.wellFormed (.gow 1 0) = false := by decide
theorem test_wf_refuses_gow_lit : Instr.wellFormed (.gow 0 1) = false := by decide
theorem test_wf_refuses_wfi_dest : Instr.wellFormed (.wfi 1 0) = false := by decide
theorem test_wf_refuses_wfi_lit : Instr.wellFormed (.wfi 0 1) = false := by decide
theorem test_wf_refuses_rfi_dest : Instr.wellFormed (.rfi 1 0) = false := by decide
theorem test_wf_refuses_rfi_lit : Instr.wellFormed (.rfi 0 1) = false := by decide
theorem test_wf_accepts : Instr.wellFormed (.gow 0 0) = true ∧ Instr.wellFormed (.addM 0x7FF) = true := by decide

/-! ### Decoding: every constructor, from a word written out by R82 and R84 (fields code, dest, lit) -/

theorem test_decode_mmW : decode 0b0000_0_00000100001#16 = .mmW 0x21 := by decide
theorem test_decode_mmM : decode 0b0000_1_00000100010#16 = .mmM 0x22 := by decide
theorem test_decode_mwm : decode 0b0001_0_00000100001#16 = .mwm 0 0x21 := by decide
theorem test_decode_mlw : decode 0b0010_0_10000000000#16 = .mlw 0 0x400 := by decide
theorem test_decode_rlmW : decode 0b0011_0_00000100000#16 = .rlmW 0x20 := by decide
theorem test_decode_rlmM : decode 0b0011_1_00000100001#16 = .rlmM 0x21 := by decide
theorem test_decode_rrmW : decode 0b0100_0_00000100000#16 = .rrmW 0x20 := by decide
theorem test_decode_rrmM : decode 0b0100_1_00000100001#16 = .rrmM 0x21 := by decide
theorem test_decode_awmW : decode 0b0101_0_00000100001#16 = .awmW 0x21 := by decide
theorem test_decode_awmM : decode 0b0101_1_00000100001#16 = .awmM 0x21 := by decide
theorem test_decode_owmW : decode 0b0110_0_00000100001#16 = .owmW 0x21 := by decide
theorem test_decode_owmM : decode 0b0110_1_00000100001#16 = .owmM 0x21 := by decide
theorem test_decode_xwmW : decode 0b0111_0_01000000000#16 = .xwmW 0x200 := by decide
theorem test_decode_xwmM : decode 0b0111_1_00000100001#16 = .xwmM 0x21 := by decide
theorem test_decode_addW : decode 0b1000_0_00000100000#16 = .addW 0x20 := by decide
theorem test_decode_addM : decode 0b1000_1_00000100001#16 = .addM 0x21 := by decide
theorem test_decode_subW : decode 0b1001_0_00000100000#16 = .subW 0x20 := by decide
theorem test_decode_subM : decode 0b1001_1_00000100001#16 = .subM 0x21 := by decide
theorem test_decode_sms : decode 0b1010_1_00000110000#16 = .sms 1 0x30 := by decide
theorem test_decode_smc : decode 0b1011_0_00000110000#16 = .smc 0 0x30 := by decide
theorem test_decode_gol : decode 0b1100_0_11111111111#16 = .gol 0 0x7FF := by decide
theorem test_decode_gow : decode 0b1101_0_11111111111#16 = .gow 0 0x7FF := by decide
theorem test_decode_wfi : decode 0b1110_1_01010111100#16 = .wfi 1 0x2BC := by decide
theorem test_decode_rfi : decode 0b1111_1_11111111111#16 = .rfi 1 0x7FF := by decide

/-- The encodings derived in 95_test_vectors.md section 1.1. -/
theorem test_encode_examples :
    encode (.mmM 0x22) = 0x0822#16 ∧ encode (.rlmM 0x21) = 0x3821#16 ∧ encode (.rrmW 0x20) = 0x4020#16 ∧
      encode (.subM 0x21) = 0x9821#16 ∧ encode (.mwm 0 0x21) = 0x1021#16 := by decide

/-- The table's words through `decodeTableWord`, and no instruction longer than one word. -/
theorem test_decodeTableWord :
    decodeTableWord 16 0x8800 = some (.addM 0) ∧ decodeTableWord 16 0xE000 = some (.wfi 0 0) ∧
      decodeTableWord 32 0x8800 = none := by decide

/-! ### Moves (M1, M3, M7, M9, M17, M20, M26, M28) -/

theorem test_mmW_loads : after (exec (.mmW 0x21) (st 0 false true 0 [(0x21, 0x1234)])) (fun t => (t.w, t.zero, t.pc)) =
    some (0x1234, false, 0x0011) := by decide
theorem test_mmW_zero_flag : after (exec (.mmW 0x202) (st 0 false true 0 [])) (fun t => (t.w, t.zero)) =
    some (0x0001, false) := by decide
theorem test_mmM_tests_zero : after (exec (.mmM 0x22) (st 0xAAAA false false 0 [(0x22, 0)])) (fun t => (t.w, t.zero)) =
    some (0xAAAA, true) := by decide
theorem test_mmM_conflict : faultOf (exec (.mmM 0x202) (st 0 false true 0 [])) = some .statusWriteConflict := by decide
theorem test_mwm_carry : after (exec (.mwm 0 0x201) (st 0xFFFE true true 0 [])) (fun t => (t.carry, t.w)) =
    some (false, 0xFFFE) := by decide
theorem test_mwm_indv : after (exec (.mwm 1 0x203) (st 0x0042 false false 0x01FF [])) (fun t => (t.ram, t.inda)) =
    some ([(0x1FF, 0x0042)], 0x01FF) := by decide
theorem test_mlw_sign_extends : after (exec (.mlw 0 0x400) (st 0 true false 0 [])) (fun t => (t.w, t.carry)) =
    some (0xFC00, true) := by decide
theorem test_mlw_zero_keeps_z : after (exec (.mlw 0 0) (st 5 true false 0 [])) (fun t => (t.w, t.zero)) =
    some (0, false) := by decide

/-! ### Rotates (RT1, RT2, RT5, RT7, RT10, RT11, RT13) -/

theorem test_rlmW : after (exec (.rlmW 0x20) (st 0 false true 0 [(0x20, 0x8001)])) (fun t => (t.w, t.carry, t.zero)) =
    some (0x0002, true, true) := by decide
theorem test_rlmW_carry_operand : after (exec (.rlmW 0x201) (st 0 true false 0 [])) (fun t => (t.w, t.carry)) =
    some (0x0003, false) := by decide
theorem test_rlmM : after (exec (.rlmM 0x21) (st 7 true false 0 [(0x21, 0x4000)])) (fun t => (t.ram, t.carry, t.w)) =
    some ([(0x21, 0x8001)], false, 7) := by decide
theorem test_rlmM_zero_flag : after (exec (.rlmM 0x202) (st 0 true true 0 [])) (fun t => (t.zero, t.carry)) =
    some (true, false) := by decide
theorem test_rrmW : after (exec (.rrmW 0x20) (st 0 false false 0 [(0x20, 0x8001)])) (fun t => (t.w, t.carry)) =
    some (0x4000, true) := by decide
theorem test_rrmM : after (exec (.rrmM 0x21) (st 0 true false 0 [(0x21, 0x0002)])) (fun t => (t.ram, t.carry)) =
    some ([(0x21, 0x8001)], false) := by decide
theorem test_rrmM_w : after (exec (.rrmM 0x200) (st 0x0003 true false 0 [])) (fun t => (t.w, t.carry)) =
    some (0x8001, true) := by decide

/-! ### Logic (LG1, LG2, LG3, LG4, LG5, LG6, LG7) -/

theorem test_awmW : after (exec (.awmW 0x21) (st 0xF0F0 true false 0 [(0x21, 0x0F0F)])) (fun t => (t.w, t.zero, t.carry)) =
    some (0, true, true) := by decide
theorem test_awmM : after (exec (.awmM 0x21) (st 0x00FF false true 0 [(0x21, 0x0FF0)])) (fun t => (t.ram, t.zero, t.w)) =
    some ([(0x21, 0x00F0)], false, 0x00FF) := by decide
theorem test_awmM_carry : after (exec (.awmM 0x201) (st 0xFFFE true false 0 [])) (fun t => (t.carry, t.zero)) =
    some (false, true) := by decide
theorem test_owmW : after (exec (.owmW 0x21) (st 0 false false 0 [(0x21, 0)])) (fun t => (t.w, t.zero)) =
    some (0, true) := by decide
theorem test_owmM : after (exec (.owmM 0x21) (st 0x00F0 false true 0 [(0x21, 0x0F00)])) (fun t => (t.ram, t.zero)) =
    some ([(0x21, 0x0FF0)], false) := by decide
theorem test_xwmW_clears : after (exec (.xwmW 0x200) (st 0xABCD false false 0 [])) (fun t => (t.w, t.zero)) =
    some (0, true) := by decide
theorem test_xwmM : after (exec (.xwmM 0x21) (st 0x00FF false true 0 [(0x21, 0xFFFF)])) (fun t => (t.ram, t.zero)) =
    some ([(0x21, 0xFF00)], false) := by decide

/-! ### Arithmetic (AR2, AR5, AR8, AR10, AR11, AR14, AR15) -/

theorem test_addW_doubles : after (exec (.addW 0x200) (st 0x8001 false true 0 [])) (fun t => (t.w, t.carry, t.zero)) =
    some (0x0002, true, false) := by decide
theorem test_addW_carry_operand : after (exec (.addW 0x201) (st 1 true false 0 [])) (fun t => (t.w, t.carry, t.zero)) =
    some (2, false, false) := by decide
theorem test_addM_wraps : after (exec (.addM 0x21) (st 1 false false 0 [(0x21, 0xFFFF)])) (fun t => (t.ram, t.carry, t.zero)) =
    some ([(0x21, 0)], true, true) := by decide
theorem test_addM_indv : after (exec (.addM 0x203) (st 1 false false 0x1F [(0x1F, 0xFFFF)])) (fun t => (t.ram, t.inda, t.carry)) =
    some ([(0x1F, 0)], 0x1F, true) := by decide
theorem test_subW_no_borrow : after (exec (.subW 0x20) (st 0 false true 0 [(0x20, 0x8000)])) (fun t => (t.w, t.carry, t.zero)) =
    some (0x8000, true, false) := by decide
theorem test_subW_borrow : after (exec (.subW 0x20) (st 0x8000 true true 0 [(0x20, 0)])) (fun t => (t.w, t.carry)) =
    some (0x8000, false) := by decide
theorem test_subM : after (exec (.subM 0x21) (st 5 true true 0 [(0x21, 3)])) (fun t => (t.ram, t.carry, t.zero, t.w)) =
    some ([(0x21, 0xFFFE)], false, false, 5) := by decide

/-! ### Skips, jumps, interrupt pair (SK2, SK7, SK3, SK6, J1, J5, IN1, IN3) -/

theorem test_sms_skips : after (exec (.sms 0 0x30) (st 0 false false 0 [(0x30, 0x8000)])) State.pc = some 0x0012 := by decide
theorem test_sms_zero_flag : after (exec (.sms 0 0x202) (st 0 false false 0 [])) State.pc = some 0x0011 := by decide
theorem test_smc_skips : after (exec (.smc 0 0x30) (st 0 false false 0 [(0x30, 0)])) State.pc = some 0x0012 := by decide
theorem test_smc_carry : after (exec (.smc 0 0x201) (st 0 true false 0 [])) State.pc = some 0x0011 := by decide
theorem test_gol : after (exec (.gol 0 0x7FF) (st 0 false false 0 [])) State.pc = some 0x07FF := by decide
theorem test_gow : after (exec (.gow 0 0x7FF) (st 0xFC00 false false 0 [])) (fun t => (t.pc, t.w)) =
    some (0xFC00, 0xFC00) := by decide
theorem test_wfi : after (exec (.wfi 0 0) (st 0 false false 0 [])) (fun t => (t.spc, t.waiting, t.pc)) =
    some (0x0010, true, 0x0010) := by decide
theorem test_rfi_wraps : after (exec (.rfi 0 0) { st 0 false false 0 [] with spc := 0xFFFF }) State.pc = some 0x0001 := by decide

/-! ### Faults and their order (M11, M12, M14, M15, X1, X2, X4) and a whole step (FD1, FD2, FD4) -/

theorem test_fault_indirect : faultOf (exec (.mmW 0x203) (st 0 false false 0x0200 [])) = some .indirectTarget := by decide
theorem test_fault_indv_itself :
    faultOf (exec (.mmW 0x203) { st 0 false false 0x0203 [] with cfg := regCfg }) = some .indirectTarget := by decide
theorem test_fault_unmapped : faultOf (exec (.addW 0x300) (st 0 false false 0 [])) = some .unmappedData := by decide
theorem test_fault_unwritten : faultOf (exec (.mmW 0x21) (st 0 false false 0 [])) = some .unwrittenRead := by decide
theorem test_fault_conflict : faultOf (exec (.addM 0x201) (st 0 false false 0 [])) = some .statusWriteConflict := by decide
/-- FD1: with 1024 words the fetch at 0x0400 faults; FD2: the word at 0x03FF executes first. -/
theorem test_step_out_of_range :
    faultOf (step { State.reset with pc := 0x0400, prog := [(0x400, 0)] }) = some .fetchOutOfRange ∧
      after (step { State.reset with pc := 0x03FF, prog := [(0x3FF, 0x2000)] })
        (fun t => (t.pc, faultOf (step t))) = some (0x0400, some .fetchOutOfRange) := by decide
theorem test_step_nothing_loaded : faultOf (step State.reset) = some .unwrittenRead := by decide
theorem test_placed_beyond : after (step ({ State.reset with pc := 0xFFFF }.withFetchWord 16 0x2001))
    (fun t => (t.w, t.pc, t.cfg.progWords)) = some (1, 0, 65536) := by decide
/-- R27, D21, U15: a skip taken at 0xFFFE of 65535 words and an rfi with spc = 0xFFFF wrap, and the next fetch
faults; with 65536 words the same skip goes on at 0x0000. -/
theorem test_wrapped_pc_faults :
    after (exec (.smc 0 0x201) { st 0 false false 0 [] with pc := 0xFFFE, cfg := { Config.standard with lastProg := 0xFFFE } })
      (fun t => (t.pc, faultOf (step t))) = some (0, some .fetchOutOfRange) ∧
    after (exec (.rfi 0 0) { st 0 false false 0 [] with spc := 0xFFFF, prog := [(1, 0x2001)] })
      (fun t => (t.pc, faultOf (step t))) = some (1, some .fetchOutOfRange) := by decide
theorem test_wrapped_pc_goes_on :
    after (exec (.smc 0 0x201) { st 0 false false 0 [] with
        pc := 0xFFFE, prog := [(0, 0x2001)], cfg := { Config.standard with lastProg := 0xFFFF } })
      (fun t => (t.pc, after (step t) State.w)) = some (0, some 1) := by decide
theorem test_step_runs_mlw : after (step (State.reset.withFetchWord 16 0x27FF)) (fun t => (t.w, t.pc)) =
    some (0xFFFF, 0x0001) := by decide
theorem test_step_all_zero_word : faultOf (step (State.reset.withFetchWord 16 0)) = some .unwrittenRead := by decide
/-- P1, step 7 and 8 of the first iteration: load through Indv, then add into RAM. -/
theorem test_steps_p1 :
    after (step { st 0x10 false false 0x10 [(0x10, 5), (0x21, 0)] with pc := 0, prog := Memory.ofWords 0 [0x0203, 0x8821] })
      (fun t => (after (step t) (fun u => (u.ram, u.w, u.carry, u.zero)))) =
    some (some ([(0x10, 5), (0x21, 5)], 5, false, false)) := by decide

/-! ### Witnesses: the hypotheses of each statement are met together -/

/-- Program memory of two words. -/
def twoWords : Config := { Config.standard with lastProg := 1 }

/-- A running state with an `mlw 1` and a `wfi` loaded. -/
def runSt : State := State.launch { cfg := twoWords, prog := [0x2001, 0xE000], ram := [(0x20, 5), (0x1FF, 7)] }

/-- The same core waiting at the `wfi`. -/
def waitSt : State := { runSt with pc := 1, spc := 1, waiting := true }

/-- An interrupt is about to be delivered to the waiting core. -/
def irqSt : State := { waitSt with intSource := [some ⟨0x40, 1⟩] }

/-- INDV_REACHES_REGS is set and INDA names the Carry flag. -/
def regSt : State := { st 1 true false 0x0201 [] with cfg := regCfg }

/-- A launch of one word that leaves the rest of the 1024 unsupplied, and one that supplies all there is. -/
theorem witness_LaunchMeetsInv :
    (Memory.wf ({ prog := [0x2001], ram := [(0x20, 5), (0x1FF, 7)], w := some 3 } : Launch).ram = true ∧
      [0x2001#16].length ≤ Config.standard.progWords) ∧
    [0x2001#16, 0xE000#16].length = twoWords.progWords := by decide
theorem witness_ProgWordsInRange : twoWords.progWords = 2 ∧ 1 ≤ 2 ∧ 2 ≤ 65536 := by decide
/-- All of program memory is supplied in the running state. -/
theorem runSt_loaded : runSt.Loaded := by
  unfold State.Loaded
  decide
theorem witness_LaunchHoldsWhatIsSupplied :
    ({ prog := [0x2001], w := some 0xFFFF, carry := some true, zero := some true, inda := some 0x1FF,
       spc := some 0xFFFF } : Launch).w = some 0xFFFF ∧ ({ prog := [0x2001] } : Launch).w = none := by decide
theorem witness_StepKeepsInv : runSt.Inv ∧ waitSt.Inv ∧ (∃ t, step runSt = .next t) ∧ ∃ t, step waitSt = .next t :=
  ⟨⟨by decide, by decide, by decide, by decide⟩, ⟨by decide, by decide, by decide, by decide⟩, ⟨_, rfl⟩, ⟨_, rfl⟩⟩
theorem witness_StepKeepsProgramAndParameters : (∃ t, step runSt = .next t) ∧ ∃ t, step irqSt = .next t :=
  ⟨⟨_, rfl⟩, ⟨_, rfl⟩⟩
theorem witness_StepRunsDecodedInstruction : runSt.event = none ∧ runSt.waiting = false ∧
    runSt.pc.toNat < runSt.cfg.progWords ∧ runSt.pcPastTop = false ∧
    Memory.read runSt.prog runSt.pc.toNat = some 0x2001 ∧ runSt.intSource = [] := by decide
theorem witness_FetchFaultsExactlyBeyondProgram :
    (runSt.event = none ∧ runSt.waiting = false ∧ ({ runSt with pc := 1 } : State).pc.toNat < runSt.cfg.progWords ∧
      runSt.Loaded) ∧
    (runSt.pcPastTop = false ∧ runSt.cfg.progWords ≤ ({ runSt with pc := 2 } : State).pc.toNat ∧
      ({ runSt with pcPastTop := true } : State).pcPastTop = true) ∧
    (State.reset.pcPastTop = false ∧ State.reset.pc.toNat < State.reset.cfg.progWords ∧ Memory.read State.reset.prog State.reset.pc.toNat = none) :=
  ⟨⟨by decide, by decide, by decide, runSt_loaded⟩, by decide, by decide⟩
theorem witness_WaitRetainsStateUntilInterrupt :
    (∃ s t, s.waiting = false ∧ step s = .next t ∧ t.waiting = true) ∧
      (waitSt.waiting = true ∧ waitSt.event = none) ∧ (irqSt.waiting = true ∧ irqSt.event = some ⟨0x40, 1⟩) :=
  ⟨⟨{ runSt with pc := 1 }, _, rfl, rfl, rfl⟩, by decide, by decide⟩
theorem witness_InterruptChangesOnlyPcSpcWaiting : irqSt.event = some ⟨0x40, 1⟩ := by decide
theorem witness_StoppedMachineStaysStopped :
    waitSt.Stopped ∧ ({ waitSt with intSource := [none, none] } : State).Stopped :=
  ⟨⟨rfl, by unfold State.NoFurtherEvent; decide⟩, ⟨rfl, by unfold State.NoFurtherEvent; decide⟩⟩
theorem witness_WaitEndsUnlessStopped :
    ({ irqSt with intSource := [none, some ⟨0x40, 1⟩] } : State).waiting = true ∧
      ¬ ({ irqSt with intSource := [none, some ⟨0x40, 1⟩] } : State).Stopped :=
  ⟨rfl, fun h => absurd (h.2 (some ⟨0x40, 1⟩) (by decide)) (by decide)⟩
theorem witness_PlacedWordRunsNext : 0xFFFF < 2 ^ 16 := by decide
theorem witness_StepDependsOnFetchedWordOnly :
    (Memory.read [(0, 0x2001#16), (9, 0xFFFF#16)] runSt.pc.toNat = Memory.read runSt.prog runSt.pc.toNat ∧
      ∃ t, step runSt = .next t) ∧
    Memory.read [] ({ runSt with pc := 2 } : State).pc.toNat = Memory.read runSt.prog 2 ∧
      ∃ f, step { runSt with pc := 2 } = .fault f :=
  ⟨⟨rfl, ⟨_, rfl⟩⟩, rfl, ⟨_, rfl⟩⟩
theorem witness_IgnoredBitsChangeNothing :
    (insnCode 0x1021 = insnCode 0x1821 ∧ insnCode 0x1821 ∈ [0x1#4, 0x2#4, 0xA#4, 0xB#4, 0xC#4] ∧
      insnLit 0x1021 = insnLit 0x1821) ∧
    (insnCode 0xD000 = insnCode 0xDFFF ∧ insnCode 0xDFFF ∈ [0xD#4, 0xE#4, 0xF#4]) := by decide
theorem witness_DecodeAgreesWithOpcodeTable :
    (⟨"mlw", none, 0x2000, 0xF000⟩ : OpRow) ∈ opTable ∧ (0x27FF#16 : Word) &&& 0xF000 = 0x2000 := by decide
theorem witness_DataReadFollowsMap :
    (0x1FF#16).toNat ≤ 0x1FF ∧ Memory.read runSt.ram (0x1FF#16).toNat = some 7 ∧
      Memory.read runSt.ram (0x000#16).toNat = none ∧ (0x200#16).toNat = 0x200 ∧ (0x201#16).toNat = 0x201 ∧
      (0x202#16).toNat = 0x202 ∧ (0x204#16).toNat = 0x204 ∧ 0x205 ≤ (0x205#16).toNat ∧
      0x205 ≤ (0xFFFF#16).toNat := by decide
theorem witness_DataWriteFollowsMap :
    (0x000#16).toNat ≤ 0x1FF ∧ (0x1FF#16).toNat ≤ 0x1FF ∧ 0x000 ≠ (0x1FF#16).toNat ∧ (0x200#16).toNat = 0x200 ∧
      (0x201#16).toNat = 0x201 ∧ (0x202#16).toNat = 0x202 ∧ (0x204#16).toNat = 0x204 ∧
      0x205 ≤ (0x205#16).toNat := by decide
theorem witness_FlagLocationsHoldOneBit :
    ∃ a b : Word, (a = 0x0201#16 ∨ a = 0x0202#16) ∧ (b = 0x0201#16 ∨ b = 0x0202#16) ∧ a ≠ b :=
  ⟨0x0201#16, 0x0202#16, .inl rfl, .inr rfl, by decide⟩
theorem witness_IndvIsWindowOnRam : (st 0 false false 0x01FF []).inda.toNat ≤ 0x1FF ∧
    (0x0000#16 : Word) ≠ (st 0 false false 0x01FF []).inda ∧ (0x0000#16 : Word) ≠ 0x0203#16 := by decide
theorem witness_IndvBeyondRam :
    (0x1FF < regSt.inda.toNat ∧ regSt.cfg.indvReachesRegs = true ∧ regSt.inda.toNat ∈ [0x200, 0x201, 0x202, 0x204]) ∧
      (0x1FF < (0x0203#16).toNat ∧ (0x0203#16).toNat ∉ [0x200, 0x201, 0x202, 0x204]) ∧
      (0x1FF < (0x0200#16).toNat ∧ (st 0 false false 0x0200 []).cfg.indvReachesRegs = false) := by decide
theorem witness_UnmappedOperandFaults : Instr.operand (.addW 0x205) = some 0x205 ∧ 0x205 ≤ (0x205#11).toNat ∧
    0x205 ≤ (0x7FF#11).toNat := by decide
theorem witness_StatusWriteConflictFaults :
    (Instr.operand (.rlmM 0x201) = some 0x201#11 ∧ Instr.stores (.rlmM 0x201) = true ∧
      Instr.affectsCarry (.rlmM 0x201) = true) ∧
    (Instr.operand (.mmM 0x202) = some 0x202#11 ∧ Instr.affectsZero (.mmM 0x202) = true) ∧
    (Instr.operand (.addM 0x203) = some 0x203#11 ∧ regSt.operandLoc 0x203 = .ok .carry ∧
      Instr.statusConflict (.addM 0x203) .carry = true) :=
  ⟨by decide, by decide, by decide, rfl, by decide⟩
theorem witness_IndirectTargetFaults : Instr.operand (.sms 0 0x203) = some 0x203#11 ∧
    0x1FF < (st 0 false false 0x0200 []).inda.toNat ∧ (st 0 false false 0x0200 []).cfg.indvReachesRegs = false := by decide
theorem witness_UnwrittenRamReadFaults : Instr.operand (.mmW 0x21) = some 0x21 ∧ Instr.loads (.mmW 0x21) = true ∧
    runSt.operandLoc 0x21 = .ok (.ram 0x21) ∧ Memory.read runSt.ram (0x21#9).toNat = none :=
  ⟨by decide, by decide, rfl, rfl⟩
theorem witness_OperandInstructionCompletesExactlyWhen : Instr.operand (.addM 0x20) = some 0x20 ∧
    runSt.operandLoc 0x20 = .ok (.ram 0x20) ∧ Instr.statusConflict (.addM 0x20) (.ram 0x20) = false ∧
    runSt.readLoc (.ram 0x20) ≠ none ∧ ∃ t, exec (.addM 0x20) runSt = .next t :=
  ⟨by decide, rfl, by decide, by decide, ⟨_, rfl⟩⟩
theorem witness_OnlyOperandsFault : Instr.operand (.mlw 0 0x205) = none ∧ ∃ f, exec (.mmW 0x21) runSt = .fault f :=
  ⟨by decide, ⟨_, rfl⟩⟩
theorem witness_FlagsPassThroughUnlessListed : (∃ t, exec (.mwm 0 0x20) runSt = .next t) ∧
    Instr.affectsCarry (.mwm 0 0x20) = false ∧ Instr.affectsZero (.mwm 0 0x20) = false ∧
    Instr.storeLoc (.mwm 0 0x20) runSt = some (.ram 0x20) := ⟨⟨_, rfl⟩, rfl, rfl, rfl⟩
theorem witness_WChangesOnlyAsDestination : (∃ t, exec (.addM 0x20) runSt = .next t) ∧
    Instr.destIsW (.addM 0x20) = false ∧ Instr.storeLoc (.addM 0x20) runSt ≠ some .wreg := ⟨⟨_, rfl⟩, rfl, by decide⟩
theorem witness_IndaChangesOnlyByMappedWrite : (∃ t, exec (.addM 0x20) runSt = .next t) ∧
    Instr.storeLoc (.addM 0x20) runSt ≠ some .inda := ⟨⟨_, rfl⟩, by decide⟩
theorem witness_RamChangesOnlyAtStoreLocation : (∃ t, exec (.addM 0x20) runSt = .next t) ∧
    ∀ b : BitVec 9, Instr.storeLoc (.addM 0x20) runSt = some (.ram b) → 0x1FF ≠ b.toNat := by
  refine ⟨⟨_, rfl⟩, fun b h => ?_⟩
  have e : Instr.storeLoc (.addM 0x20) runSt = some (.ram 0x20#9) := rfl
  rw [e] at h
  cases h
  decide
theorem witness_OnlyWfiWritesSavedPcAndWait : (∃ t, exec (.rfi 0 0) runSt = .next t) ∧
    Instr.isWfi (.rfi 0 0) = false := ⟨⟨_, rfl⟩, rfl⟩
/-- The smallest wrap, a sum at the top that does not wrap, and an address given whole. -/
theorem witness_PcAdvances_wrap :
    (∃ t, exec (.rfi 0 0) { runSt with spc := 0xFFFE } = .next t ∧
      Instr.pcBase (.rfi 0 0) { runSt with spc := 0xFFFE } = some 0xFFFE ∧ t.pc.toNat < (0xFFFE#16).toNat ∧
      runSt.cfg.progWords < 0x10000 ∧ t.event = none ∧ t.waiting = false) ∧
    (∃ t, exec (.rfi 0 0) { runSt with spc := 0xFFFD } = .next t ∧ (0xFFFD#16).toNat ≤ t.pc.toNat) ∧
    Instr.pcBase (.gow 0 0) runSt = none ∧ Instr.isWfi (.gow 0 0) = false :=
  ⟨⟨_, rfl, rfl, by decide, by decide, rfl, rfl⟩, ⟨_, rfl, by decide⟩, rfl, rfl⟩
theorem witness_PcAdvances : (∃ t, exec (.sms 0 0x20) runSt = .next t) ∧ (∃ t, exec (.smc 0 0x20) runSt = .next t) ∧
    (∃ t, exec (.gol 0 0x7FF) runSt = .next t) ∧ (∃ t, exec (.gow 0 0) runSt = .next t) ∧
    (∃ t, exec (.wfi 0 0) runSt = .next t) ∧ (∃ t, exec (.rfi 0 0) runSt = .next t) ∧
    ∃ t, exec (.addW 0x20) runSt = .next t :=
  ⟨⟨_, rfl⟩, ⟨_, rfl⟩, ⟨_, rfl⟩, ⟨_, rfl⟩, ⟨_, rfl⟩, ⟨_, rfl⟩, ⟨_, rfl⟩⟩

/-- The operand at 0x1FF, the last RAM word, is found and holds a value; it is no flag. -/
theorem operand_ready : runSt.operandLoc 0x1FF = .ok (.ram 0x1FF) ∧ runSt.readLoc (.ram 0x1FF) = some 7 ∧
    Loc.ram 0x1FF ≠ .carry ∧ Loc.ram 0x1FF ≠ .zero := ⟨rfl, rfl, by decide, by decide⟩

theorem witness_MoveToWTestsForZero : runSt.operandLoc 0x1FF = .ok (.ram 0x1FF) ∧ runSt.readLoc (.ram 0x1FF) = some 7 :=
  ⟨operand_ready.1, operand_ready.2.1⟩
theorem witness_MoveToSelfOnlyTestsForZero : runSt.operandLoc 0x201 = .ok .carry ∧ runSt.readLoc .carry = some 0 ∧
    Loc.carry ≠ .zero := ⟨rfl, rfl, by decide⟩
theorem witness_MoveWToMemStores : runSt.operandLoc 0x200 = .ok .wreg ∧ runSt.operandLoc 0x201 = .ok .carry ∧
    runSt.operandLoc 0x202 = .ok .zero ∧ runSt.operandLoc 0x21 = .ok (.ram 0x21) := ⟨rfl, rfl, rfl, rfl⟩
theorem witness_RotateLeftThroughCarry : (runSt.operandLoc 0x1FF = .ok (.ram 0x1FF) ∧
    runSt.readLoc (.ram 0x1FF) = some 7 ∧ Loc.ram 0x1FF ≠ .carry ∧ Loc.ram 0x1FF ≠ .zero) ∧
    (runSt.operandLoc 0x202 = .ok .zero ∧ runSt.readLoc .zero = some 0 ∧ Loc.zero ≠ .carry) :=
  ⟨operand_ready, rfl, rfl, by decide⟩
theorem witness_RotateRightThroughCarry : (runSt.operandLoc 0x204 = .ok .inda ∧ runSt.readLoc .inda = some 0 ∧
    Loc.inda ≠ .carry ∧ Loc.inda ≠ .zero) ∧ (runSt.operandLoc 0x202 = .ok .zero ∧ runSt.readLoc .zero = some 0) :=
  ⟨⟨rfl, rfl, by decide, by decide⟩, rfl, rfl⟩
theorem witness_LogicToW : runSt.operandLoc 0x202 = .ok .zero ∧ runSt.readLoc .zero = some 0 := ⟨rfl, rfl⟩
theorem witness_LogicToOperand : (runSt.operandLoc 0x201 = .ok .carry ∧ runSt.readLoc .carry = some 0 ∧
    Loc.carry ≠ .zero) ∧ (runSt.operandLoc 0x200 = .ok .wreg ∧ runSt.readLoc .wreg = some 0 ∧ Loc.wreg ≠ .carry) :=
  ⟨⟨rfl, rfl, by decide⟩, rfl, rfl, by decide⟩
theorem witness_AddGivesSumCarryZero : runSt.operandLoc 0x1FF = .ok (.ram 0x1FF) ∧
    runSt.readLoc (.ram 0x1FF) = some 7 ∧ Loc.ram 0x1FF ≠ .carry ∧ Loc.ram 0x1FF ≠ .zero := operand_ready
theorem witness_SubGivesDifferenceBorrowZero : runSt.operandLoc 0x20 = .ok (.ram 0x20) ∧
    runSt.readLoc (.ram 0x20) = some 5 ∧ Loc.ram 0x20 ≠ .carry ∧ Loc.ram 0x20 ≠ .zero :=
  ⟨rfl, rfl, by decide, by decide⟩
theorem witness_ExactlyOneSkipSkips : (runSt.operandLoc 0x20 = .ok (.ram 0x20) ∧ runSt.readLoc (.ram 0x20) = some 5) ∧
    runSt.operandLoc 0x200 = .ok .wreg ∧ runSt.readLoc .wreg = some 0 := ⟨⟨rfl, rfl⟩, rfl, rfl⟩
theorem witness_SeventeenLeftRotatesRestore : (0x1FF#11).toNat ≤ 0x1FF ∧
    Memory.read runSt.ram (0x1FF#11).toNat = some 7 := by decide
theorem witness_RightRotateUndoesLeft : (0x20#11).toNat ≤ 0x1FF ∧
    Memory.read runSt.ram (0x20#11).toNat = some 5 := by decide
theorem witness_SkipsAfterSubCompareUnsigned : runSt.operandLoc 0x1FF = .ok (.ram 0x1FF) ∧
    runSt.readLoc (.ram 0x1FF) = some 7 := ⟨rfl, rfl⟩
theorem witness_StoreThenLoadThroughIndv : (st 3 false false 0x01FF []).inda.toNat ≤ 0x1FF := by decide
theorem witness_AddThroughIndvAndToInda : (st 3 false false 0x01FF [(0x1FF, 9)]).inda.toNat ≤ 0x1FF ∧
    Memory.read (st 3 false false 0x01FF [(0x1FF, 9)]).ram (0x1FF#16).toNat = some 9 := by decide

end Sys2Proof.Tests
end

section
/-! PROOFS. The open parameter PROG_WORDS (00_scope.md R6, decision D1). -/

namespace Sys2Proof

/-- R6's lower bound: PROG_WORDS is one more than an address. -/
theorem Config.one_le_progWords (c : Config) : 1 ≤ c.progWords :=
  Nat.le_add_left 1 c.lastProg.toNat

/-- R6's upper bound: the last address of program memory is a word. -/
theorem Config.progWords_le (c : Config) : c.progWords ≤ 65536 :=
  Nat.succ_le_of_lt c.lastProg.isLt

/-- The default parameters of R6 with PROG_WORDS = `n`, for `1 ≤ n ≤ 65536`. -/
def Config.withProgWords (n : Nat) : Config :=
  { Config.standard with lastProg := BitVec.ofNat 16 (n - 1) }

theorem Config.progWords_withProgWords {n : Nat} (hpos : 1 ≤ n) (hle : n ≤ 65536) :
    (Config.withProgWords n).progWords = n := by
  have hlast : (BitVec.ofNat 16 (n - 1)).toNat = n - 1 :=
    Nat.mod_eq_of_lt (show n - 1 < 2 ^ 16 by omega)
  calc (Config.withProgWords n).progWords
      = (BitVec.ofNat 16 (n - 1)).toNat + 1 := rfl
    _ = n - 1 + 1 := by rw [hlast]
    _ = n := Nat.sub_add_cancel hpos

open Sys2Proof.Machine

/-- Settles O60: the bounds hold of every setting of the parameters, and a launch takes the setting it is given. -/
theorem progWordsInRange : Obligations.ProgWordsInRange := by
  refine ⟨fun s => ⟨s.cfg.one_le_progWords, s.cfg.progWords_le⟩, fun n hpos hle => ?_⟩
  refine ⟨{ cfg := Config.withProgWords n, prog := [] }, ?_⟩
  rw [State.launch_cfg]
  exact Config.progWords_withProgWords hpos hle

end Sys2Proof
end

section
/-! PROOFS. The invariant of a state is kept by each named state update, so by each of the shared templates, so by
every instruction and every step (10_state.md R27, R31; 47_interrupt_instr.md R200; 60_exceptions.md R214, R245). -/

namespace Sys2Proof.Machine

variable {s t : State}

/-! ### State updates -/

@[simp] theorem State.putResult_waiting (s : State) (dest : Dest) (l : Loc) (r : Word) :
    (s.putResult dest l r).waiting = s.waiting := by
  cases dest with
  | toW => rfl
  | toM => exact s.writeLoc_waiting l r

/-- The invariant does not speak of IntSource. -/
theorem State.Inv.passBoundary (hinv : s.Inv) : s.passBoundary.Inv := hinv

/-- The invariant does not speak of W. -/
theorem State.Inv.setW (hinv : s.Inv) (v : Word) : ({ s with w := v } : State).Inv := hinv

/-- The invariant does not speak of the flags. -/
theorem State.Inv.setFlags (hinv : s.Inv) (op : AluOp) (out : AluOut) : (s.setFlags op out).Inv := hinv

/-- A store can only change RAM among the fields the invariant speaks of, and keeps it canonical. -/
theorem State.Inv.writeLoc (hinv : s.Inv) (l : Loc) (v : Word) : (s.writeLoc l v).Inv := by
  obtain ⟨hram, hprog, hwait, htop⟩ := hinv
  exact ⟨s.writeLoc_wf l v hram, by simpa using hprog, by simpa using hwait, by simpa using htop⟩

theorem State.Inv.putResult (hinv : s.Inv) (dest : Dest) (l : Loc) (r : Word) : (s.putResult dest l r).Inv := by
  cases dest with
  | toW => exact hinv.setW r
  | toM => exact hinv.writeLoc l r

/-- An interrupt leaves a running core at an address given whole (R214, R215). -/
theorem State.Inv.takeInterrupt (hinv : s.Inv) (e : IntEntry) : (s.takeInterrupt e).Inv := by
  obtain ⟨hram, hprog, -, -⟩ := hinv
  exact ⟨hram, hprog, by simp, by simp⟩

/-- A running core that takes an address given whole has not passed the top of program memory (R27). -/
theorem State.Inv.jump (hinv : s.Inv) (hrun : s.waiting = false) (target : Word) : (s.jump target).Inv := by
  obtain ⟨hram, hprog, -, -⟩ := hinv
  exact ⟨hram, hprog, by simp [hrun], by simp⟩

/-- Where a sum of at most 2 passes the top of program memory it wraps to 0 or 1, with PROG_WORDS below 65536
(R27, D21). -/
theorem State.Inv.jumpSum (hinv : s.Inv) (hrun : s.waiting = false) (base : Word) {n : Nat} (hn : n ≤ 2) :
    (s.jumpSum base n).Inv := by
  obtain ⟨hram, hprog, -, -⟩ := hinv
  refine ⟨hram, hprog, by simp [hrun], fun htop => ?_⟩
  obtain ⟨hsum, hsize⟩ := (s.sumPastTop_iff base n).mp htop
  exact ⟨(pcSum_wraps base n hn hsum).1, hsize, hrun⟩

theorem State.Inv.advance (hinv : s.Inv) (hrun : s.waiting = false) : s.advance.Inv :=
  hinv.jumpSum hrun s.pc (by decide)

theorem State.Inv.advanceSkip (hinv : s.Inv) (hrun : s.waiting = false) (skip : Bool) : (s.advanceSkip skip).Inv :=
  hinv.jumpSum hrun s.pc (by split <;> decide)

theorem State.Inv.returnFromInterrupt (hinv : s.Inv) (hrun : s.waiting = false) : s.returnFromInterrupt.Inv :=
  hinv.jumpSum hrun s.spc le_rfl

/-- A wait saves the pc it holds (R200). It must not begin at a pc that passed the top of program memory, and does
not: no instruction is fetched there (R61). -/
theorem State.Inv.beginWait (hinv : s.Inv) (htop : s.pcPastTop = false) : s.beginWait.Inv := by
  obtain ⟨hram, hprog, -, -⟩ := hinv
  exact ⟨hram, hprog, by simp, by simp [htop]⟩

theorem State.Inv.aluEffect (hinv : s.Inv) (hrun : s.waiting = false) (op : AluOp) (dest : Dest) (l : Loc)
    (m : Word) : (s.aluEffect op dest l m).Inv :=
  ((hinv.putResult dest l _).setFlags op _).advance (by simp [hrun])

/-! ### Instructions and the step -/

theorem execAlu_keeps_inv {op : AluOp} {dest : Dest} {lit : Lit} (hinv : s.Inv) (hrun : s.waiting = false)
    (h : execAlu op dest lit s = .next t) : t.Inv := by
  obtain ⟨l, m, -, -, -, rfl⟩ := execAlu_next h
  exact hinv.aluEffect hrun op dest l m

theorem execSkip_keeps_inv {op : AluOp} {lit : Lit} (hinv : s.Inv) (hrun : s.waiting = false)
    (h : execSkip op lit s = .next t) : t.Inv := by
  obtain ⟨m, -, rfl⟩ := execSkip_next h
  exact hinv.advanceSkip hrun _

theorem execMwm_keeps_inv {dest : DestBit} {lit : Lit} (hinv : s.Inv) (hrun : s.waiting = false)
    (h : execMwm dest lit s = .next t) : t.Inv := by
  obtain ⟨l, -, rfl⟩ := execMwm_next h
  exact (hinv.writeLoc l s.w).advance (by simp [hrun])

/-- Every instruction keeps the invariant in a state whose word could be fetched: running, at a pc that did not
pass the top of program memory. The sixteen forms of the ALU template are one case. -/
theorem exec_keeps_inv {i : Instr} (hinv : s.Inv) (hrun : s.waiting = false) (htop : s.pcPastTop = false)
    (h : exec i s = .next t) : t.Inv := by
  cases i with
  | mwm dest lit => exact execMwm_keeps_inv (dest := dest) hinv hrun h
  | mlw dest lit => cases h; exact (hinv.setW (immediate lit)).advance hrun
  | sms | smc => exact execSkip_keeps_inv hinv hrun h
  | gol | gow => cases h; exact hinv.jump hrun _
  | wfi => cases h; exact hinv.beginWait htop
  | rfi => cases h; exact hinv.returnFromInterrupt hrun
  | _ => exact execAlu_keeps_inv hinv hrun h

theorem step_keeps_inv (hinv : s.Inv) (h : step s = .next t) : t.Inv := by
  obtain ⟨e, -, rfl⟩ | ⟨-, -, rfl⟩ | ⟨-, hrun, w, hfetch, hexec⟩ := step_next h
  · exact hinv.passBoundary.takeInterrupt e
  · exact hinv.passBoundary
  · obtain ⟨-, htop, -⟩ := State.fetch_ok.mp hfetch
    exact exec_keeps_inv hinv.passBoundary hrun htop hexec

end Sys2Proof.Machine

namespace Sys2Proof

open Sys2Proof.Machine

/-- Settles O3: each of the three kinds of step keeps the invariant. A fetch rules out a pc past the top, which is
what `wfi` needs. -/
theorem stepKeepsInv : Obligations.StepKeepsInv :=
  fun _ _ hinv h => step_keeps_inv hinv h

end Sys2Proof
end

section
/-! PROOFS. The two one-bit data locations, Carry at 0x0201 and Zero at 0x0202 (20_memory.md R54). -/

namespace Sys2Proof.Machine

variable (s : State)

/-- Keeping bit 0 of a word as a flag and reading the flag back is masking with 1 (R54). -/
theorem flagWord_getLsbD_zero (v : Word) : flagWord (v.getLsbD 0) = v &&& 1 := by
  rw [show v &&& 1 = _ from BitVec.and_one_eq_setWidth_ofBool_getLsbD]
  cases v.getLsbD 0 <;> rfl

section FlagLocation

/- Neither flag's address is Indv, so which location it names does not depend on the state. -/
variable {a : Word} {l : Loc} (hres : ∀ s : State, s.resolve a = .ok l) (hflag : l = .carry ∨ l = .zero)
include hres hflag

theorem State.dataRead_flag : s.dataRead a = .ok 0 ∨ s.dataRead a = .ok 1 := by
  obtain ⟨b, hb⟩ : ∃ b, s.readLoc l = some (flagWord b) := by
    obtain rfl | rfl := hflag
    · exact ⟨s.carry, rfl⟩
    · exact ⟨s.zero, rfl⟩
  have hread : s.dataRead a = .ok (flagWord b) := (s.dataRead_eq_ok a _).mpr ⟨l, hres s, hb⟩
  cases b with
  | false => exact .inl hread
  | true => exact .inr hread

theorem State.dataRead_writeLoc_flag (v : Word) : (s.writeLoc l v).dataRead a = .ok (v &&& 1) := by
  refine (State.dataRead_eq_ok _ a _).mpr ⟨l, hres _, ?_⟩
  rw [s.readLoc_writeLoc, if_pos hflag, flagWord_getLsbD_zero]

end FlagLocation

end Sys2Proof.Machine

namespace Sys2Proof

open Sys2Proof.Machine

/-- Settles O21: the store keeps bit 0 of the value and the read masks with 1; the two examples are that fact at
0xFFFE and at 0x0003. -/
theorem flagLocationsHoldOneBit : Obligations.FlagLocationsHoldOneBit := by
  intro s a ha
  have hloc : ∃ l, (∀ s : State, s.resolve a = .ok l) ∧ (l = .carry ∨ l = .zero) ∧
      (a = 0x0201#16 → l = .carry) ∧ (a = 0x0202#16 → l = .zero) := by
    obtain rfl | rfl := ha
    · exact ⟨.carry, State.resolve_carry, .inl rfl, by simp, by simp⟩
    · exact ⟨.zero, State.resolve_zero, .inr rfl, by simp, by simp⟩
  obtain ⟨l, hres, hflag, hcarry, hzero⟩ := hloc
  have hwrite (v : Word) : s.dataWrite a v = .ok (s.writeLoc l v) :=
    (s.dataWrite_eq_ok _ a v).mpr ⟨l, hres s, rfl⟩
  have hread (v : Word) : (s.writeLoc l v).dataRead a = .ok (v &&& 1) := s.dataRead_writeLoc_flag hres hflag v
  exact ⟨s.dataRead_flag hres hflag,
    fun v => ⟨_, hwrite v, hread v, fun h => by simp [hcarry h], fun h => by simp [hzero h]⟩,
    ⟨_, hwrite _, hread 0xFFFE#16⟩, ⟨_, hwrite _, hread 0x0003#16⟩⟩

end Sys2Proof
end

section
/-! PROOFS. An instruction word as its three fields (30_encoding.md R81, R82). -/

namespace Sys2Proof

/-- The fields side by side are their places in the word, joined by bitwise or (R82). -/
theorem packWord_eq_or (c : Code) (d : DestBit) (l : Lit) :
    packWord c d l = (c.setWidth 16 <<< 12) ||| (d.setWidth 16 <<< 11) ||| l.setWidth 16 :=
  calc packWord c d l
      = (c ++ d ++ l).setWidth 16 := (BitVec.setWidth_eq _).symm
    _ = (c.setWidth 16 <<< 12) ||| (d.setWidth 16 <<< 11) ||| l.setWidth 16 :=
        BitVec.setWidth_append_append_eq_shiftLeft_setWidth_or

@[simp] theorem insnCode_packWord (c : Code) (d : DestBit) (l : Lit) : insnCode (packWord c d l) = c :=
  calc insnCode (packWord c d l)
      = (c ++ d).extractLsb' 1 4 := BitVec.extractLsb'_append_eq_of_le (by decide)
    _ = c := BitVec.extractLsb'_append_eq_left

@[simp] theorem insnDest_packWord (c : Code) (d : DestBit) (l : Lit) : insnDest (packWord c d l) = d :=
  calc insnDest (packWord c d l)
      = (c ++ d).extractLsb' 0 1 := BitVec.extractLsb'_append_eq_of_le (by decide)
    _ = d := BitVec.extractLsb'_append_eq_right

@[simp] theorem insnLit_packWord (c : Code) (d : DestBit) (l : Lit) : insnLit (packWord c d l) = l :=
  BitVec.extractLsb'_append_eq_right

/-- Settles O16: R82's formula, and each field read back from its place in the packed word. -/
theorem wordIsItsThreeFields : Obligations.WordIsItsThreeFields :=
  fun c d l => ⟨packWord_eq_or c d l, insnCode_packWord c d l, insnDest_packWord c d l, insnLit_packWord c d l⟩

end Sys2Proof
end

section
/-! PROOFS. No instruction, and so no step, is refused: each of the shared templates answers a next state or a fault
(30_encoding.md R86, 60_exceptions.md R211). -/

namespace Sys2Proof.Machine

variable (s : State) (r : Refusal)

theorem execAlu_ne_refused (op : AluOp) (dest : Dest) (lit : Lit) : execAlu op dest lit s ≠ .refused r := by
  unfold execAlu
  split
  · simp
  · split
    · simp
    · split <;> simp

theorem execSkip_ne_refused (op : AluOp) (lit : Lit) : execSkip op lit s ≠ .refused r := by
  unfold execSkip
  split <;> simp

theorem execMwm_ne_refused (dest : DestBit) (lit : Lit) : execMwm dest lit s ≠ .refused r := by
  unfold execMwm
  split <;> simp

/-- Every instruction has a meaning (R86): the five forms without an operand always complete, and the others are
instances of the three templates, the sixteen forms of the ALU template in one case. -/
theorem exec_ne_refused (i : Instr) : exec i s ≠ .refused r := by
  cases i with
  | mwm dest lit => exact execMwm_ne_refused s r dest lit
  | sms dest lit | smc dest lit => exact execSkip_ne_refused s r _ lit
  | mlw | gol | gow | wfi | rfi => exact nofun
  | _ => exact execAlu_ne_refused s r _ _ _

theorem step_ne_refused : step s ≠ .refused r := by
  unfold step
  split
  · simp
  · split
    · simp
    · split
      · simp
      · exact exec_ne_refused _ r _

end Sys2Proof.Machine

namespace Sys2Proof

/-- Settles O10: taking an interrupt and waiting answer a next state, a failed fetch answers a fault, and the fetched
instruction is not refused. -/
theorem noStepIsRefused : Obligations.NoStepIsRefused :=
  Machine.step_ne_refused

end Sys2Proof
end

section
/-! PROOFS. The ALU by itself: its two rotates and its Add (40_alu_datapath.md R112 to R114). -/

namespace Sys2Proof.Machine

variable (w m : Word) (c : Bool)

/-! ### Rotating a word with one bit above it, or one below it -/

theorem rotateLeft_one_cons : (BitVec.cons c m).rotateLeft 1 = m.concat c := by
  refine BitVec.eq_of_getElem_eq fun i hi => ?_
  rw [BitVec.getElem_rotateLeft, BitVec.getElem_concat]
  cases i with
  | zero => simp [BitVec.getElem_cons]
  | succ i => simp [BitVec.getElem_cons, show i ≠ 16 by omega]

theorem rotateRight_one_concat : (m.concat c).rotateRight 1 = BitVec.cons c m := by
  refine BitVec.eq_of_getElem_eq fun i hi => ?_
  rw [BitVec.getElem_rotateRight, BitVec.getElem_cons]
  by_cases htop : i = 16
  · simp [htop]
  · simp [BitVec.getElem_concat, htop, show i < 16 by omega]

/-- A word is its upper 15 bits with its lowest below them. -/
theorem concat_extractLsb'_getLsbD_zero : (m.extractLsb' 1 15).concat (m.getLsbD 0) = m := by
  refine BitVec.eq_of_getElem_eq fun i hi => ?_
  rw [BitVec.getElem_concat]
  cases i with
  | zero => simp
  | succ i => simp [BitVec.getLsbD_eq_getElem hi, Nat.add_comm]

/-- A bit on top and a bit below can be put on in either order. -/
theorem cons_concat {n : Nat} (x : BitVec n) (b c : Bool) :
    BitVec.cons b (x.concat c) = (BitVec.cons b x).concat c :=
  (BitVec.cons_append x (BitVec.ofBool c) b).symm

/-! ### Carry and result as one 17-bit number -/

/-- R112: the top bit of the operand leaves into Carry, the old Carry enters below. -/
theorem cons_aluCarry_aluResult_rotL :
    BitVec.cons (aluCarry .rotL w m c) (aluResult .rotL w m c) = (BitVec.cons c m).rotateLeft 1 :=
  calc BitVec.cons m.msb ((m.setWidth 15).concat c)
      = (BitVec.cons m.msb (m.setWidth 15)).concat c := cons_concat _ _ _
    _ = m.concat c := by rw [BitVec.cons_msb_setWidth]
    _ = (BitVec.cons c m).rotateLeft 1 := (rotateLeft_one_cons m c).symm

/-- R113: the lowest bit of the operand leaves into Carry, the old Carry enters on top. -/
theorem cons_aluCarry_aluResult_rotR :
    BitVec.cons (aluCarry .rotR w m c) (aluResult .rotR w m c) = (BitVec.cons c m).rotateRight 1 :=
  calc BitVec.cons (m.getLsbD 0) (BitVec.cons c (m.extractLsb' 1 15))
      = ((BitVec.cons c (m.extractLsb' 1 15)).concat (m.getLsbD 0)).rotateRight 1 :=
        (rotateRight_one_concat _ _).symm
    _ = (BitVec.cons c ((m.extractLsb' 1 15).concat (m.getLsbD 0))).rotateRight 1 := by rw [cons_concat]
    _ = (BitVec.cons c m).rotateRight 1 := by rw [concat_extractLsb'_getLsbD_zero]

/-- R114: result and Carry are the low 16 bits and the 17th bit of one sum. -/
theorem cons_aluCarry_aluResult_add :
    BitVec.cons (aluCarry .add w m c) (aluResult .add w m c) = sum17 w m :=
  BitVec.cons_msb_setWidth (sum17 w m)

/-- Seventeen bits hold the sum of two words whole. -/
theorem sum17_toNat : (sum17 w m).toNat = w.toNat + m.toNat := by
  simp only [sum17, BitVec.toNat_add, BitVec.toNat_setWidth]
  omega

end Sys2Proof.Machine

namespace Sys2Proof

open Sys2Proof.Machine

/-- Settles O58: each rotate as one 17-bit number, then bit by bit. Zero and W do not enter its definition. -/
theorem aluRotatesCarryAndOperand : Obligations.AluRotatesCarryAndOperand := by
  intro w m c z
  refine ⟨⟨cons_aluCarry_aluResult_rotL w m c, m.msb_eq_getLsbD_last, BitVec.getLsbD_concat_zero, fun i hi => ?_,
      rfl, fun _ => rfl⟩,
    ⟨cons_aluCarry_aluResult_rotR w m c, rfl, ?_, fun i hi => ?_, rfl, fun _ => rfl⟩⟩
  · calc ((m.setWidth 15).concat c).getLsbD (i + 1)
        = (m.setWidth 15).getLsbD i := BitVec.getLsbD_concat_succ
      _ = m.getLsbD i := by simp [hi]
  · exact (BitVec.getLsbD_cons c (m.extractLsb' 1 15) 15).trans (if_pos rfl)
  · calc (BitVec.cons c (m.extractLsb' 1 15)).getLsbD i
        = (m.extractLsb' 1 15).getLsbD i := by rw [BitVec.getLsbD_cons, if_neg (by omega)]
      _ = m.getLsbD (i + 1) := by simp [hi, Nat.add_comm]

/-- Settles O59: the sum of two words fits in the 17 bits of Carry and result. -/
theorem aluAddsToSeventeenBits : Obligations.AluAddsToSeventeenBits := by
  intro w m c z
  refine ⟨?_, rfl, fun _ => rfl⟩
  calc (BitVec.cons (aluCarry .add w m c) (aluResult .add w m c)).toNat
      = (sum17 w m).toNat := by rw [cons_aluCarry_aluResult_add]
    _ = w.toNat + m.toNat := sum17_toNat w m

end Sys2Proof
end

section
/-! PROOFS. The flags of an instruction: the ALU template loads the ones its operation lists, and a store changes a flag
only at the flag's own address (40_alu_datapath.md R122, R124; 10_state.md R36). -/

namespace Sys2Proof

open Sys2Proof.Machine

variable {s t : State} {i : Instr} {lit : Lit} {l : Loc}

/-- An instruction that stores, stores to the location its operand names (R69). -/
theorem Instr.storeLoc_eq_some (hstores : i.stores = true) (hoperand : i.operand = some lit)
    (hloc : s.operandLoc lit = .ok l) : i.storeLoc s = some l := by
  simp [Instr.storeLoc, hstores, hoperand, hloc]

/-- Between `s` and `t`, a flag that `i` neither lists nor stores to is the same (R122). -/
def Instr.KeepsOtherFlags (i : Instr) (s t : State) : Prop :=
  (i.affectsCarry = false → i.storeLoc s ≠ some .carry → t.carry = s.carry) ∧
    (i.affectsZero = false → i.storeLoc s ≠ some .zero → t.zero = s.zero)

theorem Instr.keepsOtherFlags_of_eq (hcarry : t.carry = s.carry) (hzero : t.zero = s.zero) : i.KeepsOtherFlags s t :=
  ⟨fun _ _ => hcarry, fun _ _ => hzero⟩

/-- A store reaches a flag only as its location. -/
theorem Instr.keepsOtherFlags_of_writeLoc {v : Word} (hstore : i.storeLoc s = some l)
    (hcarry : i.affectsCarry = false → t.carry = (s.writeLoc l v).carry)
    (hzero : i.affectsZero = false → t.zero = (s.writeLoc l v).zero) : i.KeepsOtherFlags s t := by
  refine ⟨fun haff hne => ?_, fun haff hne => ?_⟩
  · have hl : l ≠ .carry := fun h => hne (h ▸ hstore)
    rw [hcarry haff, State.writeLoc_carry, if_neg hl]
  · have hl : l ≠ .zero := fun h => hne (h ▸ hstore)
    rw [hzero haff, State.writeLoc_zero, if_neg hl]

/-- An instruction of the ALU template lists the flags its operation lists, and stores its result in its Dest = 1 form
only (R111, R124). -/
theorem execAlu_keepsOtherFlags {op : AluOp} {dest : Dest} (haffC : i.affectsCarry = op.affectsCarry)
    (haffZ : i.affectsZero = op.affectsZero) (hoperand : i.operand = some lit)
    (hstores : i.stores = decide (dest = .toM)) (h : execAlu op dest lit s = .next t) : i.KeepsOtherFlags s t := by
  obtain ⟨l, m, hloc, -, -, rfl⟩ := execAlu_next h
  cases dest with
  | toW =>
    rw [State.aluEffect_toW]
    exact ⟨fun hc _ => by simp [← haffC, hc], fun hz _ => by simp [← haffZ, hz]⟩
  | toM =>
    rw [State.aluEffect_toM]
    exact Instr.keepsOtherFlags_of_writeLoc (Instr.storeLoc_eq_some hstores hoperand hloc)
      (fun hc => by simp only [← haffC, hc]; rfl) (fun hz => by simp only [← haffZ, hz]; rfl)

/-- The sixteen forms of the ALU template are one case; `mwm` lists no flag but can store to one (R142); the others do
neither. -/
theorem exec_keepsOtherFlags (h : exec i s = .next t) : i.KeepsOtherFlags s t := by
  cases i with
  | mwm dest lit =>
    obtain ⟨l, hloc, rfl⟩ := execMwm_next (dest := dest) h
    exact Instr.keepsOtherFlags_of_writeLoc (Instr.storeLoc_eq_some rfl rfl hloc) (fun _ => rfl) (fun _ => rfl)
  | sms | smc =>
    obtain ⟨m, -, rfl⟩ := execSkip_next h
    exact Instr.keepsOtherFlags_of_eq (State.advanceSkip_carry _ _) (State.advanceSkip_zero _ _)
  | mlw | gol | gow | wfi | rfi => cases h; exact Instr.keepsOtherFlags_of_eq rfl rfl
  | _ => exact execAlu_keepsOtherFlags rfl rfl rfl rfl h

/-- Settles O30: `KeepsOtherFlags` is the statement for one instruction and its two states. -/
theorem flagsPassThroughUnlessListed : Obligations.FlagsPassThroughUnlessListed :=
  fun _ _ _ h => exec_keepsOtherFlags h

end Sys2Proof
end

section
/-! PROOFS. The logic instructions to W (43_logic.md R160 to R162): the ALU template with an operation that lists Zero
and not Carry. -/

namespace Sys2Proof

open Sys2Proof.Machine

variable {s : State} {lit : Lit} {l : Loc} {m : Word}

/-- The Dest = 0 form of an operation that lists Zero alone completes once its operand is read: W takes the result, Zero
is judged on it and Carry passes through (R122, R124). -/
theorem execAlu_toW_zeroOnly {op : AluOp} (hcarry : op.affectsCarry = false) (hzero : op.affectsZero = true)
    (hloc : s.operandLoc lit = .ok l) (hread : s.readLoc l = some m) :
    ∃ t, execAlu op .toW lit s = .next t ∧ t.w = aluResult op s.w m s.carry ∧
      t.zero = zeroOf (aluResult op s.w m s.carry) ∧ t.carry = s.carry := by
  refine ⟨_, execAlu_eq_next hloc hread (writesAffectedFlag_toW op l), ?_⟩
  simp [State.aluEffect_toW, hcarry, hzero]

/-- Settles O42: AND, OR and XOR are operations that list Zero alone. -/
theorem logicToW : Obligations.LogicToW := by
  intro s lit l m hloc hread
  simp only [List.forall_mem_cons]
  exact ⟨execAlu_toW_zeroOnly (op := .and) rfl rfl hloc hread, execAlu_toW_zeroOnly (op := .or) rfl rfl hloc hread,
    execAlu_toW_zeroOnly (op := .xor) rfl rfl hloc hread, List.forall_mem_nil _⟩

end Sys2Proof
end

section
/-! PROOFS. The rotates through Carry (42_rotates.md R150, R151): the ALU template with an operation that lists Carry
and not Zero. -/

namespace Sys2Proof.Machine

variable {op : AluOp} {s : State} {l : Loc} {m : Word}

/-- What a Dest = 1 form stores is what its location reads afterwards, unless that is a flag, which takes bit 0 alone
(R54) and may be loaded after the store (R124). -/
theorem State.readLoc_aluEffect_toM (hlc : l ≠ .carry) (hlz : l ≠ .zero) :
    (s.aluEffect op .toM l m).readLoc l = some (aluResult op s.w m s.carry) :=
  calc (s.aluEffect op .toM l m).readLoc l
      = (s.writeLoc l (aluResult op s.w m s.carry)).readLoc l := by
        rw [State.aluEffect_toM]
        cases l with
        | carry => exact absurd rfl hlc
        | zero => exact absurd rfl hlz
        | ram | wreg | inda => rfl
    _ = some (aluResult op s.w m s.carry) := by simp [State.readLoc_writeLoc, hlc, hlz]

/-- An operation that does not list Zero has two writers only at the Carry flag (R68). -/
theorem writesAffectedFlag_toM_carryOnly (hzero : op.affectsZero = false) (hlc : l ≠ .carry) :
    writesAffectedFlag op .toM l = false := by
  cases l with
  | carry => exact absurd rfl hlc
  | zero => exact hzero
  | ram | wreg | inda => rfl

end Sys2Proof.Machine

namespace Sys2Proof

open Sys2Proof.Machine

section CarryOnly

/- An operation that lists Carry alone, whose operand is read and whose new Carry and result together are the 17 bits
`x`. -/
variable {op : AluOp} {s : State} {lit : Lit} {l : Loc} {m : Word} {x : BitVec 17}
  (hcarry : op.affectsCarry = true) (hzero : op.affectsZero = false)
  (hout : BitVec.cons (aluCarry op s.w m s.carry) (aluResult op s.w m s.carry) = x)
  (hloc : s.operandLoc lit = .ok l) (hread : s.readLoc l = some m)
include hcarry hzero hout hloc hread

theorem execAlu_toW_carryOnly :
    ∃ t, execAlu op .toW lit s = .next t ∧ BitVec.cons t.carry t.w = x ∧ t.zero = s.zero := by
  refine ⟨_, execAlu_eq_next hloc hread (writesAffectedFlag_toW op l), ?_⟩
  simp [State.aluEffect_toW, hcarry, hzero, hout]

/-- Zero is changed by the store alone, so only where it is the location stored to. -/
theorem execAlu_toM_carryOnly (hlc : l ≠ .carry) :
    ∃ t r, execAlu op .toM lit s = .next t ∧ BitVec.cons t.carry r = x ∧
      (l ≠ .zero → t.readLoc l = some r ∧ t.zero = s.zero) ∧ (l = .zero → t.zero = r.getLsbD 0) := by
  have hz : (s.aluEffect op .toM l m).zero =
      if l = .zero then (aluResult op s.w m s.carry).getLsbD 0 else s.zero := by
    simp [State.aluEffect_toM, hzero]
  refine ⟨_, aluResult op s.w m s.carry, execAlu_eq_next hloc hread (writesAffectedFlag_toM_carryOnly hzero hlc),
    ?_, fun hlz => ⟨State.readLoc_aluEffect_toM hlc hlz, hz.trans (if_neg hlz)⟩, fun hlz => hz.trans (if_pos hlz)⟩
  simp [State.aluEffect_toM, hcarry, hout]

end CarryOnly

/-- Settles O40: R112 gives Carry and result of a left rotate as one 17-bit number, in both forms. -/
theorem rotateLeftThroughCarry : Obligations.RotateLeftThroughCarry := by
  intro s lit l m hloc hread
  have hout := cons_aluCarry_aluResult_rotL s.w m s.carry
  exact ⟨execAlu_toW_carryOnly rfl rfl hout hloc hread, execAlu_toM_carryOnly rfl rfl hout hloc hread⟩

/-- Settles O41: R113 gives Carry and result of a right rotate as one 17-bit number, in both forms. -/
theorem rotateRightThroughCarry : Obligations.RotateRightThroughCarry := by
  intro s lit l m hloc hread
  have hout := cons_aluCarry_aluResult_rotR s.w m s.carry
  exact ⟨execAlu_toW_carryOnly rfl rfl hout hloc hread, execAlu_toM_carryOnly rfl rfl hout hloc hread⟩

end Sys2Proof
end

section
/-! PROOFS. The addition (44_arith.md R170): the ALU template with an operation that lists Carry and Zero. -/

namespace Sys2Proof.Machine

variable (w m : Word) (c : Bool)

/-! ### Result, Carry and Zero of Add as numbers -/

/-- R114: the result is the low 16 bits of the sum. -/
theorem aluResult_add_toNat : (aluResult .add w m c).toNat = (w.toNat + m.toNat) % 0x10000 :=
  calc ((sum17 w m).setWidth 16).toNat
      = (sum17 w m).toNat % 0x10000 := BitVec.toNat_setWidth 16 _
    _ = (w.toNat + m.toNat) % 0x10000 := by rw [sum17_toNat]

/-- R114: the 17th bit of the sum tells whether the sum leaves 16 bits. -/
theorem aluCarry_add : aluCarry .add w m c = decide (0x10000 ≤ w.toNat + m.toNat) :=
  calc (sum17 w m).msb
      = decide (0x10000 ≤ (sum17 w m).toNat) := BitVec.msb_eq_decide _
    _ = decide (0x10000 ≤ w.toNat + m.toNat) := by rw [sum17_toNat]

theorem zeroOf_eq_decide_toNat (r : Word) : zeroOf r = decide (r.toNat = 0) :=
  decide_eq_decide.mpr BitVec.toNat_inj.symm

/-- R114: Zero is judged on the low 16 bits of the sum. -/
theorem zeroOf_aluResult_add :
    zeroOf (aluResult .add w m c) = decide ((w.toNat + m.toNat) % 0x10000 = 0) := by
  rw [zeroOf_eq_decide_toNat, aluResult_add_toNat]

/-- A store to a location that is no flag never has two writers (R68). -/
theorem writesAffectedFlag_toM_noFlag (op : AluOp) {l : Loc} (hlc : l ≠ .carry) (hlz : l ≠ .zero) :
    writesAffectedFlag op .toM l = false := by
  cases l with
  | carry => exact absurd rfl hlc
  | zero => exact absurd rfl hlz
  | ram | wreg | inda => rfl

end Sys2Proof.Machine

namespace Sys2Proof

open Sys2Proof.Machine

section CarryAndZero

/- An operation that lists Carry and Zero, whose operand is read. -/
variable {op : AluOp} {s : State} {lit : Lit} {l : Loc} {m : Word}
  (hcarry : op.affectsCarry = true) (hzero : op.affectsZero = true)
  (hloc : s.operandLoc lit = .ok l) (hread : s.readLoc l = some m)
include hcarry hzero hloc hread

theorem execAlu_toW_carryZero :
    ∃ t, execAlu op .toW lit s = .next t ∧ t.w = aluResult op s.w m s.carry ∧
      t.carry = aluCarry op s.w m s.carry ∧ t.zero = zeroOf (aluResult op s.w m s.carry) := by
  refine ⟨_, execAlu_eq_next hloc hread (writesAffectedFlag_toW op l), ?_⟩
  simp [State.aluEffect_toW, hcarry, hzero]

/-- At a location that is no flag nothing stands between the store and the two flags loaded after it (R124). -/
theorem execAlu_toM_carryZero (hlc : l ≠ .carry) (hlz : l ≠ .zero) :
    ∃ t, execAlu op .toM lit s = .next t ∧ t.readLoc l = some (aluResult op s.w m s.carry) ∧
      t.carry = aluCarry op s.w m s.carry ∧ t.zero = zeroOf (aluResult op s.w m s.carry) := by
  refine ⟨_, execAlu_eq_next hloc hread (writesAffectedFlag_toM_noFlag op hlc hlz),
    State.readLoc_aluEffect_toM hlc hlz, ?_⟩
  simp [State.aluEffect_toM, hcarry, hzero]

end CarryAndZero

/-- Settles O44: both forms hand on the Add of the ALU, whose result and flags R114 gives as numbers. -/
theorem addGivesSumCarryZero : Obligations.AddGivesSumCarryZero := by
  intro s lit l m hloc hread
  refine ⟨?_, fun hlc hlz => ?_⟩
  · obtain ⟨t, hnext, hw, hc, hz⟩ := execAlu_toW_carryZero (op := .add) rfl rfl hloc hread
    exact ⟨t, hnext, hw ▸ aluResult_add_toNat _ _ _, hc.trans (aluCarry_add _ _ _),
      hz.trans (zeroOf_aluResult_add _ _ _)⟩
  · obtain ⟨t, hnext, hr, hc, hz⟩ := execAlu_toM_carryZero (op := .add) rfl rfl hloc hread hlc hlz
    exact ⟨t, _, hnext, hr, aluResult_add_toNat _ _ _, hc.trans (aluCarry_add _ _ _),
      hz.trans (zeroOf_aluResult_add _ _ _)⟩

end Sys2Proof
end

section
/-! PROOFS. Decoder, encoder and opcode table agree (30_encoding.md R81 to R87): everything about a word is read off its
three fields. -/

namespace Sys2Proof

/-! ### A word and its fields -/

/-- A word is its three fields side by side (R81). -/
theorem packWord_fields (w : Word) : packWord (insnCode w) (insnDest w) (insnLit w) = w :=
  calc (w.extractLsb' 12 4 ++ w.extractLsb' 11 1) ++ w.extractLsb' 0 11
      = w.extractLsb' 11 5 ++ w.extractLsb' 0 11 := by
        rw [BitVec.extractLsb'_append_extractLsb'_eq_extractLsb' (by decide)]
    _ = w.extractLsb' 0 16 := by
        rw [BitVec.extractLsb'_append_extractLsb'_eq_extractLsb' (by decide)]
    _ = w := BitVec.extractLsb'_eq_self

/-- The decoder reads the fields back from a packed word, whatever they are (R81, R84). -/
theorem decode_packWord (c : Code) (d : DestBit) (l : Lit) : decode (packWord c d l) = decodeFields c d l := by
  simp [decode]

/-- Every instruction packs the code, Dest bit and literal that the opcode map gives it (R84). -/
theorem decode_encode (i : Instr) : decode (encode i) = i := by
  cases i <;> exact decode_packWord _ _ _

/-- Where the Dest bit selects the form, encoding the selected form gives that bit back (R85). -/
theorem encode_byDest {toW toM : Instr} {c : Code} {l : Lit} (hW : encode toW = packWord c 0 l)
    (hM : encode toM = packWord c 1 l) (d : DestBit) : encode (byDest d toW toM) = packWord c d l := by
  obtain rfl | rfl := BitVec.eq_zero_or_eq_one d
  · exact hW
  · exact hM

/-- The opcode map loses no bit of any field: in eight rows the Dest bit selects the form, in the others it is kept
in the instruction, and the last row is that of the one code left (R84, R87). -/
theorem encode_decodeFields (c : Code) (d : DestBit) (l : Lit) : encode (decodeFields c d l) = packWord c d l := by
  unfold decodeFields
  split
  case h_1 | h_4 | h_5 | h_6 | h_7 | h_8 | h_9 | h_10 => exact encode_byDest rfl rfl d
  case h_16 =>
    have hlast : c = 0xF#4 := by
      simp only [imp_false] at *
      bv_omega
    subst hlast
    rfl
  all_goals rfl

theorem encode_decode (w : Word) : encode (decode w) = w :=
  (encode_decodeFields _ _ _).trans (packWord_fields w)

/-- Settles O13: the fields an instruction is packed from are the ones the decoder reads. -/
theorem decodeOfEncode : Obligations.DecodeOfEncode := decode_encode

/-- Settles O14: the opcode map keeps all three fields, ignored bits included, and a word is its three fields. -/
theorem encodeOfDecode : Obligations.EncodeOfDecode := encode_decode

/-! ### The opcode table -/

/-- Every instruction's own word stands in its row, and its row in the table. -/
theorem tableRow (i : Instr) : Laws.TableRow.Statement i :=
  match i with
  | .mmW lit => Laws.TableRow.mmW lit
  | .mmM lit => Laws.TableRow.mmM lit
  | .mwm dest lit => Laws.TableRow.mwm dest lit
  | .mlw dest lit => Laws.TableRow.mlw dest lit
  | .rlmW lit => Laws.TableRow.rlmW lit
  | .rlmM lit => Laws.TableRow.rlmM lit
  | .rrmW lit => Laws.TableRow.rrmW lit
  | .rrmM lit => Laws.TableRow.rrmM lit
  | .awmW lit => Laws.TableRow.awmW lit
  | .awmM lit => Laws.TableRow.awmM lit
  | .owmW lit => Laws.TableRow.owmW lit
  | .owmM lit => Laws.TableRow.owmM lit
  | .xwmW lit => Laws.TableRow.xwmW lit
  | .xwmM lit => Laws.TableRow.xwmM lit
  | .addW lit => Laws.TableRow.addW lit
  | .addM lit => Laws.TableRow.addM lit
  | .subW lit => Laws.TableRow.subW lit
  | .subM lit => Laws.TableRow.subM lit
  | .sms dest lit => Laws.TableRow.sms dest lit
  | .smc dest lit => Laws.TableRow.smc dest lit
  | .gol dest lit => Laws.TableRow.gol dest lit
  | .gow dest ign => Laws.TableRow.gow dest ign
  | .wfi dest ign => Laws.TableRow.wfi dest ign
  | .rfi dest ign => Laws.TableRow.rfi dest ign

/-- Two rows whose patterns agree under both masks are one row: no word can stand in two (R86). -/
theorem opTable_disjoint :
    ∀ r ∈ opTable, ∀ q ∈ opTable, r.pattern &&& q.mask = q.pattern &&& r.mask → r = q := by decide

/-- A word that stands in two rows makes their patterns agree under both masks. -/
theorem OpRow.eq_of_matches {w : Word} {r q : OpRow} (hr : r ∈ opTable) (hq : q ∈ opTable)
    (hwr : w &&& r.mask = r.pattern) (hwq : w &&& q.mask = q.pattern) : r = q := by
  refine opTable_disjoint r hr q hq ?_
  calc r.pattern &&& q.mask
      = w &&& r.mask &&& q.mask := by rw [hwr]
    _ = w &&& q.mask &&& r.mask := by ac_rfl
    _ = q.pattern &&& r.mask := by rw [hwq]

/-- Settles O15: a word is the encoding of the instruction it decodes to, so it stands in that instruction's row, and
then in no other. -/
theorem decodeAgreesWithOpcodeTable : Obligations.DecodeAgreesWithOpcodeTable := by
  intro w
  obtain ⟨hmatch, hmem⟩ := tableRow (decode w)
  rw [encode_decode] at hmatch
  exact ⟨hmem, hmatch, fun r hr hwr => OpRow.eq_of_matches hr hmem hwr hmatch⟩

/-- Settles O17: twelve words of the table, decoded. -/
theorem specWordsDecode : Obligations.SpecWordsDecode := by
  unfold Obligations.SpecWordsDecode
  decide

/-! ### Ignored bits -/

open Sys2Proof.Machine

/-- In the rows of mwm, mlw, sms, smc and gol the Dest bit changes no meaning (R85). -/
theorem exec_decodeFields_ignores_dest {c : Code} (hc : c ∈ [0x1#4, 0x2#4, 0xA#4, 0xB#4, 0xC#4]) (d e : DestBit)
    (l : Lit) (s : State) : exec (decodeFields c d l) s = exec (decodeFields c e l) s := by
  simp only [List.mem_cons, List.not_mem_nil, or_false] at hc
  obtain rfl | rfl | rfl | rfl | rfl := hc <;> rfl

/-- In the rows of gow, wfi and rfi neither the Dest bit nor the literal changes a meaning (R87, D12). -/
theorem exec_decodeFields_ignores_dest_lit {c : Code} (hc : c ∈ [0xD#4, 0xE#4, 0xF#4]) (d e : DestBit)
    (k l : Lit) (s : State) : exec (decodeFields c d k) s = exec (decodeFields c e l) s := by
  simp only [List.mem_cons, List.not_mem_nil, or_false] at hc
  obtain rfl | rfl | rfl := hc <;> rfl

/-- Settles O18: the row, that is the code, decides which fields count. -/
theorem ignoredBitsChangeNothing : Obligations.IgnoredBitsChangeNothing := by
  intro v w s hcode hrow
  unfold decode
  rw [hcode]
  obtain ⟨hc, hlit⟩ | hc := hrow
  · rw [hlit]
    exact exec_decodeFields_ignores_dest hc _ _ _ s
  · exact exec_decodeFields_ignores_dest_lit hc _ _ _ _ s

end Sys2Proof
end

section
/-! PROOFS. The data space: the address map and the Indv window (20_memory.md R51 to R57). -/

namespace Sys2Proof.Machine

variable {s t : State} {a b v : Word} {l : Loc} {f : Fault}

/-! ### Reads and writes by what the address resolves to -/

theorem State.dataRead_of_error (h : s.resolve a = .error f) : s.dataRead a = .error f := by
  simp [State.dataRead, h]

theorem State.dataRead_of_unwritten (h : s.resolve a = .ok l) (hread : s.readLoc l = none) :
    s.dataRead a = .error .unwrittenRead := by
  simp [State.dataRead, State.readFound, h, hread]

theorem State.dataRead_of_ok (h : s.resolve a = .ok l) (hread : s.readLoc l = some v) : s.dataRead a = .ok v :=
  (s.dataRead_eq_ok a v).mpr ⟨l, h, hread⟩

theorem State.dataWrite_of_error (h : s.resolve a = .error f) : s.dataWrite a v = .error f := by
  simp [State.dataWrite, h]

theorem State.dataWrite_of_ok (h : s.resolve a = .ok l) : s.dataWrite a v = .ok (s.writeLoc l v) :=
  (s.dataWrite_eq_ok _ a v).mpr ⟨l, h, rfl⟩

/-- Two addresses that name the same are read alike. -/
theorem State.dataRead_congr (h : s.resolve a = s.resolve b) : s.dataRead a = s.dataRead b := by
  simp only [State.dataRead, h]

/-- Two addresses that name the same are written alike. -/
theorem State.dataWrite_congr (h : s.resolve a = s.resolve b) : s.dataWrite a v = s.dataWrite b v := by
  simp only [State.dataWrite, h]

/-! ### The map -/

/-- A store to a RAM address is a write of its word, at the address itself. -/
theorem State.writeLoc_ramKey (h : a.toNat ≤ 0x1FF) :
    s.writeLoc (.ram (a.setWidth 9)) v = { s with ram := Memory.write s.ram a.toNat v } := by
  rw [State.writeLoc, toNat_ramKey h]

theorem State.readLoc_ramKey (h : a.toNat ≤ 0x1FF) :
    s.readLoc (.ram (a.setWidth 9)) = Memory.read s.ram a.toNat := by
  rw [State.readLoc, toNat_ramKey h]

/-- What an address other than Indv names does not depend on the state (R51). -/
theorem State.resolve_of_ne_indv (h : a ≠ 0x0203#16) : t.resolve a = s.resolve a := by
  simp [State.resolve, h]

/-- Distinct addresses have distinct storage (R37). -/
theorem storageAt_injective (ha : storageAt a = some l) (hb : storageAt b = some l) : a = b := by
  obtain ⟨ha, hla⟩ | ⟨rfl, rfl⟩ | ⟨rfl, rfl⟩ | ⟨rfl, rfl⟩ | ⟨rfl, rfl⟩ := storageAt_eq_some ha
  · obtain ⟨hb, hlb⟩ | ⟨-, hlb⟩ | ⟨-, hlb⟩ | ⟨-, hlb⟩ | ⟨-, hlb⟩ := storageAt_eq_some hb
    · have hkey : a.setWidth 9 = b.setWidth 9 := by simpa [hla] using hlb
      exact BitVec.eq_of_toNat_eq ((toNat_ramKey ha).symm.trans (hkey ▸ toNat_ramKey hb))
    all_goals simp [hla] at hlb
  all_goals simpa [eq_comm] using storageAt_eq_some hb

/-- The location an address other than Indv names is its storage (R51). -/
theorem State.storageAt_of_resolve (h : a ≠ 0x0203#16) (hres : s.resolve a = .ok l) : storageAt a = some l := by
  simp only [State.resolve, if_neg h] at hres
  split at hres
  · next k hk => cases hres; exact hk
  · cases hres

end Sys2Proof.Machine

namespace Sys2Proof

open Sys2Proof.Machine

/-- Settles O19: each address range by what it resolves to and what the location holds. -/
theorem dataReadFollowsMap : Obligations.DataReadFollowsMap := by
  intro s a
  refine ⟨fun v ha hread => State.dataRead_of_ok (s.resolve_ram a ha) ((State.readLoc_ramKey ha).trans hread),
    fun ha hread => State.dataRead_of_unwritten (s.resolve_ram a ha) ((State.readLoc_ramKey ha).trans hread),
    fun ha => ?_, fun ha => ?_, fun ha => ?_, fun ha => ?_,
    fun ha => State.dataRead_of_error (s.resolve_unmapped a ha)⟩
  · obtain rfl : a = 0x0200#16 := BitVec.eq_of_toNat_eq ha
    exact State.dataRead_of_ok s.resolve_wreg rfl
  · obtain rfl : a = 0x0201#16 := BitVec.eq_of_toNat_eq ha
    exact State.dataRead_of_ok s.resolve_carry rfl
  · obtain rfl : a = 0x0202#16 := BitVec.eq_of_toNat_eq ha
    exact State.dataRead_of_ok s.resolve_zero rfl
  · obtain rfl : a = 0x0204#16 := BitVec.eq_of_toNat_eq ha
    exact State.dataRead_of_ok s.resolve_inda rfl

/-- Settles O20: each address range by the location it resolves to; RAM by the laws of a memory write. -/
theorem dataWriteFollowsMap : Obligations.DataWriteFollowsMap := by
  intro s a v
  refine ⟨fun ha => ⟨Memory.write s.ram a.toNat v, ?_, Memory.read_write_same _ _ _,
      fun b hb => Memory.read_write_ne _ v hb⟩, fun ha => ?_, fun ha => ?_, fun ha => ?_, fun ha => ?_,
    fun ha => State.dataWrite_of_error (s.resolve_unmapped a ha)⟩
  · rw [State.dataWrite_of_ok (s.resolve_ram a ha), State.writeLoc_ramKey ha]
  · obtain rfl : a = 0x0200#16 := BitVec.eq_of_toNat_eq ha
    exact State.dataWrite_of_ok s.resolve_wreg
  · obtain rfl : a = 0x0201#16 := BitVec.eq_of_toNat_eq ha
    exact State.dataWrite_of_ok s.resolve_carry
  · obtain rfl : a = 0x0202#16 := BitVec.eq_of_toNat_eq ha
    exact State.dataWrite_of_ok s.resolve_zero
  · obtain rfl : a = 0x0204#16 := BitVec.eq_of_toNat_eq ha
    exact State.dataWrite_of_ok s.resolve_inda

end Sys2Proof
end

section
/-! PROOFS. The Indv window: RAM[INDA], or with INDV_REACHES_REGS a register (20_memory.md R55, R56). -/

namespace Sys2Proof.Machine

variable {s : State} {a : Word} {l : Loc}

/-- With INDA in RAM, Indv names what INDA's own address names (R55). -/
theorem State.resolve_indv_of_ram (h : s.inda.toNat ≤ 0x1FF) : s.resolve 0x0203#16 = s.resolve s.inda :=
  (s.indTarget_ram h).trans (s.resolve_ram s.inda h).symm

/-- Under INDV_REACHES_REGS, with INDA at a register that has storage, Indv names that register (R56). -/
theorem State.resolve_indv_of_reg (hreach : s.cfg.indvReachesRegs = true)
    (h : s.inda.toNat ∈ [0x200, 0x201, 0x202, 0x204]) : s.resolve 0x0203#16 = s.resolve s.inda := by
  have hinda : s.inda = 0x0200#16 ∨ s.inda = 0x0201#16 ∨ s.inda = 0x0202#16 ∨ s.inda = 0x0204#16 := by
    simpa [← BitVec.toNat_inj] using h
  rw [State.resolve_indv]
  obtain h | h | h | h := hinda <;> simp [State.indTarget, h, hreach, storageAt]

/-- Indv names a location or is the fault `indirectTarget`; there is no third outcome (R55, R56). -/
theorem State.indTarget_cases (s : State) : s.indTarget = .error .indirectTarget ∨ ∃ l, s.indTarget = .ok l := by
  unfold State.indTarget
  split
  · exact .inr ⟨_, rfl⟩
  · split
    · exact .inr ⟨_, rfl⟩
    · exact .inl rfl
  · exact .inl rfl

/-- Beyond RAM, an address with storage is one of four (R51). -/
theorem storageAt_beyond_ram (h : storageAt a = some l) (ha : 0x1FF < a.toNat) :
    a.toNat ∈ [0x200, 0x201, 0x202, 0x204] := by
  obtain ⟨hle, -⟩ | ⟨rfl, -⟩ | ⟨rfl, -⟩ | ⟨rfl, -⟩ | ⟨rfl, -⟩ := storageAt_eq_some h
  · exact absurd ha (Nat.not_lt.mpr hle)
  all_goals decide

/-- With INDA beyond RAM, Indv is a fault unless INDV_REACHES_REGS lets it reach a register (R56, D7). -/
theorem State.resolve_indv_beyond_ram (h : 0x1FF < s.inda.toNat)
    (hno : ¬ (s.cfg.indvReachesRegs = true ∧ s.inda.toNat ∈ [0x200, 0x201, 0x202, 0x204])) :
    s.resolve 0x0203#16 = .error .indirectTarget := by
  rw [State.resolve_indv]
  refine s.indTarget_cases.resolve_right fun ⟨l, hl⟩ => hno ?_
  obtain ⟨hstorage, hle | hreach⟩ := State.indTarget_eq_ok hl
  · omega
  · exact ⟨hreach, storageAt_beyond_ram hstorage h⟩

/-- A store to the RAM word of one address is not seen at any other address with a fixed meaning (R37). -/
theorem State.dataRead_writeLoc_ramKey {b : Word} (v : Word) (hb : b.toNat ≤ 0x1FF) (hab : a ≠ b)
    (ha : a ≠ 0x0203#16) : (s.writeLoc (.ram (b.setWidth 9)) v).dataRead a = s.dataRead a := by
  have hres := State.resolve_of_ne_indv (s := s) (t := s.writeLoc (.ram (b.setWidth 9)) v) ha
  cases hloc : s.resolve a with
  | error f => rw [State.dataRead_of_error hloc, State.dataRead_of_error (hres.trans hloc)]
  | ok l =>
    have hl : l ≠ .ram (b.setWidth 9) := by
      rintro rfl
      have hbr : b ≠ 0x0203#16 := by rintro rfl; simp at hb
      exact hab (storageAt_injective (State.storageAt_of_resolve ha hloc)
        (State.storageAt_of_resolve hbr (s.resolve_ram b hb)))
    simp only [State.dataRead, State.readFound, hres, hloc, s.readLoc_writeLoc_ne v hl]

end Sys2Proof.Machine

namespace Sys2Proof

open Sys2Proof.Machine

/-- Settles O22: with INDA in RAM, Indv names the RAM word INDA does, and a store there leaves INDA, so the window,
where it is. -/
theorem indvIsWindowOnRam : Obligations.IndvIsWindowOnRam := by
  intro s v hinda
  have hram := s.resolve_ram s.inda hinda
  have hwindow := State.resolve_indv_of_ram hinda
  let t := s.writeLoc (.ram (s.inda.setWidth 9)) v
  have hback : t.dataRead s.inda = .ok v :=
    State.dataRead_of_ok (t.resolve_ram s.inda hinda) (by simp [t, State.readLoc_writeLoc])
  have hwindow' : t.resolve 0x0203#16 = t.resolve s.inda := State.resolve_indv_of_ram (s := t) hinda
  exact ⟨State.dataRead_congr hwindow, t, State.dataWrite_of_ok (hwindow.trans hram), rfl,
    (State.dataRead_congr hwindow').trans hback, hback,
    fun a hne hindv => State.dataRead_writeLoc_ramKey v hinda hne hindv⟩

/-- Settles O23: either Indv names what INDA's own address names, or it is the fault. -/
theorem indvBeyondRam : Obligations.IndvBeyondRam := by
  intro s v hinda
  refine ⟨fun ⟨hreach, hreg⟩ => ?_, fun hno => ?_⟩
  · have hwindow := State.resolve_indv_of_reg hreach hreg
    exact ⟨State.dataRead_congr hwindow, State.dataWrite_congr hwindow⟩
  · have hfault := State.resolve_indv_beyond_ram hinda hno
    exact ⟨State.dataRead_of_error hfault, State.dataWrite_of_error hfault⟩

end Sys2Proof
end

section
/-! PROOFS. When an instruction completes and when it faults (20_memory.md R52, R55 to R57, R68; 40_alu_datapath.md
R125): the three templates of the instructions with a mem/reg operand, then what follows for every instruction. -/

namespace Sys2Proof.Machine

variable {s : State} {lit : Lit} {l : Loc} {f : Fault} {op : AluOp} {dest : Dest}

/-! ### The templates -/

theorem execAlu_of_loc_error (h : s.operandLoc lit = .error f) : execAlu op dest lit s = .fault f := by
  simp [execAlu, h]

theorem execAlu_of_conflict (hloc : s.operandLoc lit = .ok l) (hc : writesAffectedFlag op dest l = true) :
    execAlu op dest lit s = .fault .statusWriteConflict := by
  simp [execAlu, hloc, hc]

theorem execAlu_of_unwritten (hloc : s.operandLoc lit = .ok l) (hc : writesAffectedFlag op dest l = false)
    (hread : s.readLoc l = none) : execAlu op dest lit s = .fault .unwrittenRead := by
  simp [execAlu, hloc, hc, hread]

theorem execSkip_of_read_error (h : s.dataRead (dataAddr lit) = .error f) : execSkip op lit s = .fault f := by
  simp [execSkip, h]

theorem execMwm_of_loc_error {d : DestBit} (h : s.operandLoc lit = .error f) : execMwm d lit s = .fault f := by
  simp [execMwm, State.dataWrite_of_error h]

/-- When mwm completes: the converse of `execMwm_next`. -/
theorem execMwm_eq_next {d : DestBit} (h : s.operandLoc lit = .ok l) :
    execMwm d lit s = .next (s.writeLoc l s.w).advance := by
  simp [execMwm, State.dataWrite_of_ok h]

/-- Naming a location fails for two reasons only (R55 to R57). -/
theorem State.resolve_fault {a : Word} (h : s.resolve a = .error f) : f = .unmappedData ∨ f = .indirectTarget := by
  unfold State.resolve at h
  split at h
  · obtain herr | ⟨l, hok⟩ := s.indTarget_cases
    · rw [herr] at h
      cases h
      exact .inr rfl
    · rw [hok] at h
      cases h
  · split at h
    · cases h
    · cases h
      exact .inl rfl

end Sys2Proof.Machine

namespace Sys2Proof

open Sys2Proof.Machine

variable {i : Instr} {s : State} {lit : Lit} {l : Loc} {f : Fault}

/-! ### Every instruction with an operand is one of the templates -/

/-- The template that gives `i` its meaning at its operand `lit`, and what the tables of R36, R69 and R85 then say of
`i`. -/
inductive Instr.Form (i : Instr) (lit : Lit) : Prop
  | alu (op : AluOp) (dest : Dest) (hexec : ∀ s, exec i s = execAlu op dest lit s) (hloads : i.loads = true)
      (hstores : i.stores = decide (dest = .toM)) (hdestW : i.destIsW = decide (dest = .toW))
      (hcarry : i.affectsCarry = op.affectsCarry) (hzero : i.affectsZero = op.affectsZero)
  | skip (op : AluOp) (hexec : ∀ s, exec i s = execSkip op lit s) (hloads : i.loads = true)
      (hstores : i.stores = false)
  | mwm (dest : DestBit) (hmwm : i = .mwm dest lit)

theorem Instr.form_of_operand (hop : i.operand = some lit) : i.Form lit := by
  cases i with
  | mwm dest => cases hop; exact .mwm dest rfl
  | sms | smc => cases hop; exact .skip _ (fun _ => rfl) rfl rfl
  | mlw | gol | gow | wfi | rfi => cases hop
  | _ => cases hop; exact .alu _ _ (fun _ => rfl) rfl rfl rfl rfl rfl

/-- The two-writer case of an ALU instruction is the one its template tests for (R68). -/
theorem Instr.statusConflict_eq {op : AluOp} {dest : Dest} (hstores : i.stores = decide (dest = .toM))
    (hcarry : i.affectsCarry = op.affectsCarry) (hzero : i.affectsZero = op.affectsZero) (l : Loc) :
    i.statusConflict l = writesAffectedFlag op dest l := by
  unfold Instr.statusConflict
  rw [hstores, hcarry, hzero]
  cases dest with
  | toW => simp
  | toM => cases l <;> simp [writesAffectedFlag]

theorem Instr.statusConflict_of_not_stores (h : i.stores = false) : i.statusConflict l = false := by
  simp [Instr.statusConflict, h]

/-! ### The four outcomes of an instruction with an operand, in the order of R125 -/

theorem exec_of_operandLoc_error (hop : i.operand = some lit) (hloc : s.operandLoc lit = .error f) :
    exec i s = .fault f := by
  obtain ⟨op, dest, hexec⟩ | ⟨op, hexec⟩ | ⟨dest, rfl⟩ := Instr.form_of_operand hop
  · exact (hexec s).trans (execAlu_of_loc_error hloc)
  · exact (hexec s).trans (execSkip_of_read_error (State.dataRead_of_error hloc))
  · exact execMwm_of_loc_error (d := dest) hloc

theorem exec_of_statusConflict (hop : i.operand = some lit) (hloc : s.operandLoc lit = .ok l)
    (hc : i.statusConflict l = true) : exec i s = .fault .statusWriteConflict := by
  obtain ⟨op, dest, hexec, -, hstores, -, hcarry, hzero⟩ | ⟨op, hexec, -, hstores⟩ | ⟨dest, rfl⟩ :=
    Instr.form_of_operand hop
  · rw [Instr.statusConflict_eq hstores hcarry hzero] at hc
    exact (hexec s).trans (execAlu_of_conflict hloc hc)
  · rw [Instr.statusConflict_of_not_stores hstores] at hc
    cases hc
  · cases hc

/-- Only a RAM word can be unwritten, so no flag stands there (log 1). -/
theorem exec_of_unwritten (hop : i.operand = some lit) (hloads : i.loads = true) (hloc : s.operandLoc lit = .ok l)
    (hread : s.readLoc l = none) : exec i s = .fault .unwrittenRead := by
  obtain ⟨op, dest, hexec⟩ | ⟨op, hexec⟩ | ⟨dest, rfl⟩ := Instr.form_of_operand hop
  · obtain ⟨a, rfl, -⟩ := (s.readLoc_eq_none l).mp hread
    have hc : writesAffectedFlag op dest (.ram a) = false := by cases dest <;> rfl
    exact (hexec s).trans (execAlu_of_unwritten hloc hc hread)
  · exact (hexec s).trans (execSkip_of_read_error (State.dataRead_of_unwritten hloc hread))
  · cases hloads

theorem exec_completes (hop : i.operand = some lit) (hloc : s.operandLoc lit = .ok l)
    (hc : i.statusConflict l = false) (hread : i.loads = true → ∃ m, s.readLoc l = some m) :
    ∃ t, exec i s = .next t := by
  obtain ⟨op, dest, hexec, hloads, hstores, -, hcarry, hzero⟩ | ⟨op, hexec, hloads⟩ | ⟨dest, rfl⟩ :=
    Instr.form_of_operand hop
  · obtain ⟨m, hm⟩ := hread hloads
    rw [Instr.statusConflict_eq hstores hcarry hzero] at hc
    exact ⟨_, (hexec s).trans (execAlu_eq_next hloc hm hc)⟩
  · obtain ⟨m, hm⟩ := hread hloads
    exact ⟨_, (hexec s).trans (execSkip_eq_next (State.dataRead_of_ok hloc hm))⟩
  · exact ⟨_, execMwm_eq_next (d := dest) hloc⟩

theorem exec_completes_of_no_operand (h : i.operand = none) (s : State) : ∃ t, exec i s = .next t := by
  cases i with
  | mlw | gol | gow | wfi | rfi => exact ⟨_, rfl⟩
  | _ => cases h

/-! ### What follows for every instruction -/

/-- An instruction with an operand completes exactly when none of its three faults stops it. -/
theorem exec_completes_iff (hop : i.operand = some lit) :
    (∃ t, exec i s = .next t) ↔
      ∃ l, s.operandLoc lit = .ok l ∧ i.statusConflict l = false ∧ (i.loads = true → s.readLoc l ≠ none) := by
  constructor
  · rintro ⟨t, ht⟩
    cases hloc : s.operandLoc lit with
    | error f => simp [exec_of_operandLoc_error hop hloc] at ht
    | ok l =>
      refine ⟨l, rfl, ?_, fun hloads hread => ?_⟩
      · refine Bool.eq_false_iff.mpr fun hc => ?_
        simp [exec_of_statusConflict hop hloc hc] at ht
      · simp [exec_of_unwritten hop hloads hloc hread] at ht
  · rintro ⟨l, hloc, hc, hread⟩
    exact exec_completes hop hloc hc fun hloads => Option.ne_none_iff_exists'.mp (hread hloads)

/-- The faults an instruction can raise: those of R211 but for the one of the fetch. -/
theorem exec_fault_cases (h : exec i s = .fault f) :
    f = .unmappedData ∨ f = .statusWriteConflict ∨ f = .indirectTarget ∨ f = .unwrittenRead := by
  cases hop : i.operand with
  | none =>
    obtain ⟨t, ht⟩ := exec_completes_of_no_operand hop s
    simp [ht] at h
  | some lit =>
    cases hloc : s.operandLoc lit with
    | error g =>
      rw [exec_of_operandLoc_error hop hloc] at h
      cases h
      exact (State.resolve_fault hloc).imp_right fun h => .inr (.inl h)
    | ok l =>
      by_cases hc : i.statusConflict l = true
      · rw [exec_of_statusConflict hop hloc hc] at h
        cases h
        exact .inr (.inl rfl)
      · by_cases hread : i.loads = true ∧ s.readLoc l = none
        · obtain ⟨hloads, hnone⟩ := hread
          rw [exec_of_unwritten hop hloads hloc hnone] at h
          cases h
          exact .inr (.inr (.inr rfl))
        · obtain ⟨t, ht⟩ := (exec_completes_iff hop).mpr
            ⟨l, hloc, Bool.eq_false_iff.mpr hc, fun hloads hnone => hread ⟨hloads, hnone⟩⟩
          simp [ht] at h

/-- An address in the literal is a data address as it stands (R67). -/
@[simp] theorem toNat_dataAddr (lit : Lit) : (dataAddr lit).toNat = lit.toNat := by
  simp only [dataAddr, BitVec.toNat_setWidth]
  omega

/-- Settles O24: naming the operand is the first thing such an instruction does, and it fails. -/
theorem unmappedOperandFaults : Obligations.UnmappedOperandFaults := by
  intro i s lit hop hlit
  exact exec_of_operandLoc_error hop (s.resolve_unmapped (dataAddr lit) (by simpa using hlit))

/-- Settles O25: the two literals name the two flags, so the first half is a case of the second. -/
theorem statusWriteConflictFaults : Obligations.StatusWriteConflictFaults := by
  refine ⟨fun i s lit hop hstores haff => ?_, fun i s lit l hop hloc hc => exec_of_statusConflict hop hloc hc⟩
  obtain ⟨rfl, haff⟩ | ⟨rfl, haff⟩ := haff
  · exact exec_of_statusConflict hop s.resolve_carry (by simp [Instr.statusConflict, hstores, haff])
  · exact exec_of_statusConflict hop s.resolve_zero (by simp [Instr.statusConflict, hstores, haff])

/-- Settles O26: naming the operand fails, since Indv reaches no register. -/
theorem indirectTargetFaults : Obligations.IndirectTargetFaults := by
  intro i s hop hinda hreach
  exact exec_of_operandLoc_error hop (State.resolve_indv_beyond_ram hinda (by simp [hreach]))

/-- Settles O27: the operand's location holds no value. -/
theorem unwrittenRamReadFaults : Obligations.UnwrittenRamReadFaults :=
  fun _ _ _ _ hop hloads hloc hread => exec_of_unwritten hop hloads hloc hread

/-- Settles O28: none of the three faults stops the instruction. -/
theorem operandInstructionCompletesExactlyWhen : Obligations.OperandInstructionCompletesExactlyWhen :=
  fun _ _ _ hop => exec_completes_iff hop

/-- Settles O29: the five forms without an operand complete, and the others have the faults of naming, storing to and
reading it. -/
theorem onlyOperandsFault : Obligations.OnlyOperandsFault :=
  ⟨fun _ s hop => exec_completes_of_no_operand hop s, fun _ _ _ h => exec_fault_cases h⟩

end Sys2Proof
end

section
/-! PROOFS. The frames of the instructions: what none of them changes (10_state.md R21, R24, R28, R29; 20_memory.md R53,
R69). -/

namespace Sys2Proof.Machine

/-! ### What the ALU effect leaves of the control state -/

section AluEffect

variable (s : State) (op : AluOp) (dest : Dest) (l : Loc) (m : Word)

@[simp] theorem State.aluEffect_cfg : (s.aluEffect op dest l m).cfg = s.cfg := by
  cases dest <;> simp [State.aluEffect]
@[simp] theorem State.aluEffect_pc : (s.aluEffect op dest l m).pc = s.pc + 1 := by
  cases dest <;> simp [State.aluEffect]
@[simp] theorem State.aluEffect_spc : (s.aluEffect op dest l m).spc = s.spc := by
  cases dest <;> simp [State.aluEffect]
@[simp] theorem State.aluEffect_waiting : (s.aluEffect op dest l m).waiting = s.waiting := by
  cases dest <;> simp [State.aluEffect]
@[simp] theorem State.aluEffect_prog : (s.aluEffect op dest l m).prog = s.prog := by
  cases dest <;> simp [State.aluEffect]
@[simp] theorem State.aluEffect_intSource : (s.aluEffect op dest l m).intSource = s.intSource := by
  cases dest <;> simp [State.aluEffect]

end AluEffect

/-! ### A store that may not take place -/

/-- `s` after a store of `v` to a location, if there is one: what an instruction can do to RAM and INDA, and to a W
that is not its destination. -/
def State.storeOpt (s : State) : Option Loc → Word → State
  | some l, v => s.writeLoc l v
  | none, _ => s

variable {s : State} {o : Option Loc} {v : Word}

theorem State.storeOpt_w (h : o ≠ some .wreg) : (s.storeOpt o v).w = s.w := by
  cases o with
  | none => rfl
  | some l => exact (s.writeLoc_w l v).trans (if_neg fun hl => h (congrArg some hl))

theorem State.storeOpt_inda (h : o ≠ some .inda) : (s.storeOpt o v).inda = s.inda := by
  cases o with
  | none => rfl
  | some l => exact (s.writeLoc_inda l v).trans (if_neg fun hl => h (congrArg some hl))

theorem State.storeOpt_ram_read {a : Nat} (h : ∀ b : BitVec 9, o = some (.ram b) → a ≠ b.toNat) :
    Memory.read (s.storeOpt o v).ram a = Memory.read s.ram a := by
  cases o with
  | none => rfl
  | some l => exact s.writeLoc_ram_read l v a fun b hl => h b (hl ▸ rfl)

end Sys2Proof.Machine

namespace Sys2Proof

open Sys2Proof.Machine

variable {i : Instr} {s t : State} {lit : Lit}

theorem Instr.storeLoc_of_not_stores (h : i.stores = false) : i.storeLoc s = none := by
  simp [Instr.storeLoc, h]

/-- Between `s` and `t`, RAM, INDA and a W that is not the destination of `i` changed by the store of `i` only. -/
def Instr.ChangesByStore (i : Instr) (s t : State) : Prop :=
  ∃ v, t.ram = (s.storeOpt (i.storeLoc s) v).ram ∧ t.inda = (s.storeOpt (i.storeLoc s) v).inda ∧
    (i.destIsW = false → t.w = (s.storeOpt (i.storeLoc s) v).w)

theorem Instr.changesByStore_of_not_stores (hstores : i.stores = false) (hram : t.ram = s.ram)
    (hinda : t.inda = s.inda) (hw : i.destIsW = false → t.w = s.w) : i.ChangesByStore s t :=
  ⟨0, by rw [Instr.storeLoc_of_not_stores hstores]; exact ⟨hram, hinda, hw⟩⟩

theorem Instr.changesByStore_of_writeLoc {l : Loc} {v : Word} (hstore : i.storeLoc s = some l)
    (hram : t.ram = (s.writeLoc l v).ram) (hinda : t.inda = (s.writeLoc l v).inda)
    (hw : t.w = (s.writeLoc l v).w) : i.ChangesByStore s t :=
  ⟨v, by rw [hstore]; exact ⟨hram, hinda, fun _ => hw⟩⟩

theorem exec_changesByStore (h : exec i s = .next t) : i.ChangesByStore s t := by
  cases hop : i.operand with
  | none =>
    cases i with
    | mlw => cases h; exact Instr.changesByStore_of_not_stores rfl rfl rfl nofun
    | gol | gow | wfi | rfi => cases h; exact Instr.changesByStore_of_not_stores rfl rfl rfl fun _ => rfl
    | _ => cases hop
  | some lit =>
    obtain ⟨op, dest, hexec, -, hstores, hdestW, -, -⟩ | ⟨op, hexec, -, hstores⟩ | ⟨dest, rfl⟩ :=
      Instr.form_of_operand hop
    · obtain ⟨l, m, hloc, -, -, rfl⟩ := execAlu_next ((hexec s).symm.trans h)
      cases dest with
      | toW =>
        rw [State.aluEffect_toW]
        exact Instr.changesByStore_of_not_stores hstores rfl rfl fun hw => by simp [hdestW] at hw
      | toM =>
        rw [State.aluEffect_toM]
        exact Instr.changesByStore_of_writeLoc (Instr.storeLoc_eq_some hstores hop hloc) rfl rfl rfl
    · obtain ⟨m, -, rfl⟩ := execSkip_next ((hexec s).symm.trans h)
      exact Instr.changesByStore_of_not_stores hstores (by simp) (by simp) (by simp)
    · obtain ⟨l, hloc, rfl⟩ := execMwm_next (dest := dest) h
      exact Instr.changesByStore_of_writeLoc (Instr.storeLoc_eq_some rfl hop hloc) rfl rfl rfl

/-- What no instruction but `wfi` changes, and what none does (R28, R29, R62). -/
theorem exec_keeps_control (h : exec i s = .next t) :
    (i.isWfi = false → t.spc = s.spc ∧ t.waiting = s.waiting) ∧
      t.prog = s.prog ∧ t.cfg = s.cfg ∧ t.intSource = s.intSource := by
  cases i with
  | mwm dest lit => obtain ⟨l, -, rfl⟩ := execMwm_next (dest := dest) h; simp
  | sms | smc => obtain ⟨m, -, rfl⟩ := execSkip_next h; simp
  | mlw | gol | gow | rfi => cases h; exact ⟨fun _ => ⟨rfl, rfl⟩, rfl, rfl, rfl⟩
  | wfi => cases h; exact ⟨nofun, rfl, rfl, rfl⟩
  | _ => obtain ⟨l, m, -, -, -, rfl⟩ := execAlu_next h; simp

/-- Settles O31: W can change by the store alone, and that is not to W. -/
theorem wChangesOnlyAsDestination : Obligations.WChangesOnlyAsDestination := by
  intro i s t h hdest hstore
  obtain ⟨v, -, -, hw⟩ := exec_changesByStore h
  exact (hw hdest).trans (State.storeOpt_w hstore)

/-- Settles O32: INDA can change by the store alone, and that is not to INDA. -/
theorem indaChangesOnlyByMappedWrite : Obligations.IndaChangesOnlyByMappedWrite := by
  intro i s t h hstore
  obtain ⟨v, -, hinda, -⟩ := exec_changesByStore h
  exact hinda.trans (State.storeOpt_inda hstore)

/-- Settles O33: RAM can change by the store alone, and that is to another word. -/
theorem ramChangesOnlyAtStoreLocation : Obligations.RamChangesOnlyAtStoreLocation := by
  intro i s t a h hstore
  obtain ⟨v, hram, -, -⟩ := exec_changesByStore h
  exact hram ▸ State.storeOpt_ram_read hstore

/-- Settles O34: the frame of the control state, instruction by instruction. -/
theorem onlyWfiWritesSavedPcAndWait : Obligations.OnlyWfiWritesSavedPcAndWait :=
  fun _ _ _ h => exec_keeps_control h

end Sys2Proof
end

section
/-! PROOFS. The step: interrupt, wait, fetch and execution (10_state.md R27, R31; 20_memory.md R61; 40_alu_datapath.md
R123; 60_exceptions.md R213 to R215, R225; 70_reset_and_hazards.md R245). -/

namespace Sys2Proof.Machine

variable {s t : State} {e : IntEntry} {w : Word} {f : Fault}

/-! ### Each kind of step -/

theorem step_of_event (h : s.event = some e) : step s = .next (s.passBoundary.takeInterrupt e) := by
  simp [step, h]

theorem step_of_waiting (hev : s.event = none) (hwait : s.waiting = true) : step s = .next s.passBoundary := by
  simp [step, hev, hwait]

theorem step_of_fetch_ok (hev : s.event = none) (hrun : s.waiting = false) (hfetch : s.fetch = .ok w) :
    step s = exec (decode w) s.passBoundary := by
  simp [step, hev, hrun, hfetch]

theorem step_of_fetch_error (hev : s.event = none) (hrun : s.waiting = false) (hfetch : s.fetch = .error f) :
    step s = .fault f := by
  simp [step, hev, hrun, hfetch]

/-- Inside program memory, the fetch of a word that no launch has supplied (R8, log 5). -/
theorem State.fetch_unwritten (hpc : s.pc.toNat < s.cfg.progWords) (htop : s.pcPastTop = false)
    (hread : Memory.read s.prog s.pc.toNat = none) : s.fetch = .error .unwrittenRead := by
  simp [State.fetch, htop, hread, Nat.not_le.mpr hpc]

/-- No instruction raises the fault of the fetch (R61, R211). -/
theorem exec_ne_fetchOutOfRange (i : Instr) : exec i s ≠ .fault .fetchOutOfRange := by
  intro h
  obtain h | h | h | h := exec_fault_cases h <;> cases h

theorem step_fetchOutOfRange_iff (hev : s.event = none) (hrun : s.waiting = false) :
    step s = .fault .fetchOutOfRange ↔ s.fetch = .error .fetchOutOfRange := by
  cases hfetch : s.fetch with
  | ok w => simp [step_of_fetch_ok hev hrun hfetch, exec_ne_fetchOutOfRange]
  | error f => simp [step_of_fetch_error hev hrun hfetch]

/-! ### What a step keeps -/

/-- A step keeps program memory and parameters and moves the IntSource list on (R31, R62). -/
theorem step_keeps_program (h : step s = .next t) :
    t.prog = s.prog ∧ t.cfg = s.cfg ∧ t.intSource = s.intSource.tail := by
  obtain ⟨e, -, rfl⟩ | ⟨-, -, rfl⟩ | ⟨-, -, w, -, hexec⟩ := step_next h
  · exact ⟨rfl, rfl, rfl⟩
  · exact ⟨rfl, rfl, rfl⟩
  · exact (exec_keeps_control hexec).2

/-- A step that enters the wait executed a `wfi` (R225). -/
theorem step_enters_wait (hrun : s.waiting = false) (h : step s = .next t) (hwait : t.waiting = true) :
    ∃ w, s.fetch = .ok w ∧ (decode w).isWfi = true := by
  obtain ⟨e, -, rfl⟩ | ⟨-, hwait', -⟩ | ⟨-, -, w, hfetch, hexec⟩ := step_next h
  · simp at hwait
  · simp [hrun] at hwait'
  · refine ⟨w, hfetch, ?_⟩
    by_contra hno
    obtain ⟨hcontrol, -⟩ := exec_keeps_control hexec
    obtain ⟨-, hkeeps⟩ := hcontrol (by simpa using hno)
    simp [hkeeps, hrun] at hwait

/-! ### Runs of a waiting core -/

/-- A stopped machine runs to itself, its list of events shorter (R245). -/
theorem run_of_stopped (n : Nat) (h : s.Stopped) :
    ∃ t, Host.Core.run Sys2Proof.core n s = .next t ∧ t.Stopped ∧
      t = { s with intSource := s.intSource.drop n } := by
  induction n generalizing s with
  | zero => exact ⟨s, rfl, h, rfl⟩
  | succ n ih =>
    obtain ⟨hstep, hstopped⟩ := h.step
    obtain ⟨t, hrun, ht, heq⟩ := ih hstopped
    have hdrop : s.passBoundary.intSource.drop n = s.intSource.drop (n + 1) := List.drop_tail
    rw [hdrop] at heq
    exact ⟨t, (run_of_step hstep n).trans hrun, ht, heq⟩

/-- A waiting core takes the first event that is still to come, after as many steps as stand before it (R214). -/
theorem run_leaves_wait (hwait : s.waiting = true) (hev : ∃ e, some e ∈ s.intSource) :
    ∃ n t, Host.Core.run Sys2Proof.core n s = .next t ∧ t.waiting = false := by
  obtain ⟨e, he⟩ := hev
  induction hl : s.intSource generalizing s with
  | nil => simp [hl] at he
  | cons b l ih =>
    cases b with
    | some e' =>
      have hstep : step s = .next (s.passBoundary.takeInterrupt e') := step_of_event (by simp [State.event, hl])
      exact ⟨1, _, run_of_step hstep 0, rfl⟩
    | none =>
      have hstep : step s = .next s.passBoundary := step_of_waiting (by simp [State.event, hl]) hwait
      have htail : s.passBoundary.intSource = l := by simp [hl]
      obtain ⟨n, t, hrun, ht⟩ := ih (s := s.passBoundary) hwait (by simpa [hl] using he) htail
      exact ⟨n + 1, t, (run_of_step hstep n).trans hrun, ht⟩

/-- A waiting core that has not stopped has an event to come (R245). -/
theorem exists_event_of_not_stopped (hwait : s.waiting = true) (h : ¬ s.Stopped) : ∃ e, some e ∈ s.intSource := by
  have hsome : ¬ s.NoFurtherEvent := fun hnone => h ⟨hwait, hnone⟩
  unfold State.NoFurtherEvent at hsome
  push Not at hsome
  obtain ⟨b, hb, hne⟩ := hsome
  obtain ⟨e, rfl⟩ := Option.ne_none_iff_exists'.mp hne
  exact ⟨e, hb⟩

/-! ### A word placed for the next step -/

theorem State.fetch_withFetchWord (s : State) {w : Nat} (h : w < 2 ^ 16) :
    (s.withFetchWord 16 w).fetch = .ok (BitVec.ofNat 16 w) := by
  refine State.fetch_ok.mpr ⟨?_, rfl, ?_⟩
  · have hlast : s.pc ≤ if s.cfg.lastProg < s.pc then s.pc else s.cfg.lastProg := by
      split
      · exact BitVec.le_refl _
      · next hge => exact BitVec.not_lt.mp hge
    exact Nat.lt_succ_of_le hlast
  · exact (Memory.read_write_same _ _ _).trans (by rw [Nat.mod_eq_of_lt h])

end Sys2Proof.Machine

namespace Sys2Proof

open Sys2Proof.Machine

/-- Settles O4: by the three kinds of step. -/
theorem stepKeepsProgramAndParameters : Obligations.StepKeepsProgramAndParameters :=
  fun _ _ h => step_keeps_program h

/-- Settles O5: the fetch succeeds. -/
theorem stepRunsDecodedInstruction : Obligations.StepRunsDecodedInstruction :=
  fun _ _ hev hrun hpc htop hread =>
    ⟨step_of_fetch_ok hev hrun (State.fetch_ok.mpr ⟨hpc, htop, hread⟩), State.passBoundary_of_nil⟩

/-- Settles O6: the three outcomes of a fetch, since no instruction raises the fault of the fetch. -/
theorem fetchFaultsExactlyBeyondProgram : Obligations.FetchFaultsExactlyBeyondProgram := by
  intro s hev hrun
  refine ⟨(step_fetchOutOfRange_iff hev hrun).trans State.fetch_outOfRange, fun hloaded hpc htop => ?_,
    fun hpc htop hread => step_of_fetch_error hev hrun (State.fetch_unwritten hpc htop hread)⟩
  obtain ⟨w, hread⟩ := Option.ne_none_iff_exists'.mp (hloaded _ hpc)
  exact ⟨w, hread, step_of_fetch_ok hev hrun (State.fetch_ok.mpr ⟨hpc, htop, hread⟩)⟩

/-- Settles O7: entering, holding and ending the wait, each from the kind of step that does it. -/
theorem waitRetainsStateUntilInterrupt : Obligations.WaitRetainsStateUntilInterrupt := by
  refine ⟨fun s t hrun h hwait => ?_, fun s hwait hev => ?_, fun s e _ hev => ⟨_, step_of_event hev, rfl⟩⟩
  · obtain ⟨w, hfetch, hwfi⟩ := step_enters_wait hrun h hwait
    obtain ⟨-, -, hread⟩ := State.fetch_ok.mp hfetch
    exact ⟨w, hread, hwfi⟩
  · exact ⟨_, step_of_waiting hev hwait, hwait, rfl, rfl, rfl, rfl, rfl, rfl, rfl, rfl⟩

/-- Settles O8: the step is `takeInterrupt`, which writes these three fields and the note of a wrapped pc. -/
theorem interruptChangesOnlyPcSpcWaiting : Obligations.InterruptChangesOnlyPcSpcWaiting :=
  fun _ _ hev => ⟨_, step_of_event hev, rfl, rfl, rfl, rfl, rfl, rfl, rfl, rfl, rfl, rfl, rfl⟩

/-- Settles O9, by induction on the number of steps. -/
theorem stoppedMachineStaysStopped : Obligations.StoppedMachineStaysStopped :=
  fun _ n h => run_of_stopped n h

/-- Settles O57, by induction on the list of events. -/
theorem waitEndsUnlessStopped : Obligations.WaitEndsUnlessStopped :=
  fun _ hwait h => run_leaves_wait hwait (exists_event_of_not_stopped hwait h)

/-- Settles O11: the placed word is fetched, in a running core with no event to come. -/
theorem placedWordRunsNext : Obligations.PlacedWordRunsNext := by
  intro s w hw
  calc step (s.withFetchWord 16 w)
      = exec (decode (BitVec.ofNat 16 w)) (s.withFetchWord 16 w).passBoundary :=
        step_of_fetch_ok rfl rfl (s.fetch_withFetchWord hw)
    _ = exec (decode (BitVec.ofNat 16 w)) (s.withFetchWord 16 w) := by rw [State.passBoundary_of_nil rfl]

end Sys2Proof
end

section
/-! PROOFS. Reset and launch (10_state.md R34; 70_reset_and_hazards.md R240, R246). -/

namespace Sys2Proof.Machine

/-- A launched program stands in program memory from address 0 on (R246). -/
theorem State.read_launch_prog (l : Launch) (a : Nat) : Memory.read (State.launch l).prog a = l.prog[a]? := by
  simp [Memory.read_ofWords]

theorem State.Inv.launch (l : Launch) (hram : Memory.wf l.ram = true) (hfit : l.prog.length ≤ l.cfg.progWords) :
    (State.launch l).Inv :=
  ⟨hram, Memory.wfIn_ofWords l.prog 0 (by simpa using hfit), by simp, by simp⟩

theorem State.Loaded.launch (l : Launch) (hfull : l.prog.length = l.cfg.progWords) : (State.launch l).Loaded := by
  intro a ha
  have hlen : a < l.prog.length := hfull ▸ ha
  rw [State.read_launch_prog, List.getElem?_eq_getElem hlen]
  simp

end Sys2Proof.Machine

namespace Sys2Proof

open Sys2Proof.Machine

/-- Settles O1: reset is the launch that supplies nothing. -/
theorem resetLeavesLaunchState : Obligations.ResetLeavesLaunchState :=
  ⟨rfl, rfl, rfl, fun _ => rfl, rfl, fun _ => rfl, rfl, rfl, rfl, rfl, rfl, rfl, rfl⟩

/-- Settles O2: reset is a launch with no program and no RAM word. -/
theorem launchMeetsInv : Obligations.LaunchMeetsInv :=
  ⟨State.Inv.launch { prog := [] } rfl (Nat.zero_le _), State.Inv.launch, State.Loaded.launch⟩

/-- Settles O56: each field of the launch state; a register holds what is supplied, or zero. -/
theorem launchHoldsWhatIsSupplied : Obligations.LaunchHoldsWhatIsSupplied := by
  intro l
  refine ⟨rfl, rfl, rfl, rfl, State.read_launch_prog l, rfl, rfl, ?_⟩
  simp +contextual

end Sys2Proof
end

section
/-! PROOFS. Program memory is reached by instruction fetch only (10_state.md R35, R62): an instruction does the same
whatever program memory holds, and a step depends on it through the fetched word. -/

namespace Sys2Proof.Machine

/-- `s` with another program memory. -/
def State.withProg (s : State) (p : Memory) : State := { s with prog := p }

/-- The outcome with another program memory in the next state, if there is one. -/
def outcomeWithProg (p : Memory) : Host.Outcome State Fault Refusal → Host.Outcome State Fault Refusal
  | .next t => .next (t.withProg p)
  | .fault f => .fault f
  | .refused r => .refused r

variable (s : State) (p : Memory) (op : AluOp) (dest : Dest) (lit : Lit)

/-! ### The operations, none of which looks at program memory -/

theorem State.operandLoc_withProg : (s.withProg p).operandLoc lit = s.operandLoc lit := rfl

theorem State.dataRead_withProg (a : Word) : (s.withProg p).dataRead a = s.dataRead a := rfl

theorem State.readLoc_withProg (l : Loc) : (s.withProg p).readLoc l = s.readLoc l := rfl

theorem State.writeLoc_withProg (l : Loc) (v : Word) :
    (s.withProg p).writeLoc l v = (s.writeLoc l v).withProg p := by
  cases l <;> rfl

theorem State.aluEffect_withProg (l : Loc) (m : Word) :
    (s.withProg p).aluEffect op dest l m = (s.aluEffect op dest l m).withProg p := by
  cases dest with
  | toW => rfl
  | toM => cases l <;> rfl

/-! ### The templates, the instructions and the step -/

theorem execAlu_withProg : execAlu op dest lit (s.withProg p) = outcomeWithProg p (execAlu op dest lit s) := by
  unfold execAlu
  rw [State.operandLoc_withProg]
  split
  · rfl
  · rw [State.readLoc_withProg]
    split
    · rfl
    · split
      · rfl
      · rw [State.aluEffect_withProg]
        rfl

theorem execSkip_withProg : execSkip op lit (s.withProg p) = outcomeWithProg p (execSkip op lit s) := by
  unfold execSkip
  rw [State.dataRead_withProg]
  split <;> rfl

theorem execMwm_withProg (d : DestBit) : execMwm d lit (s.withProg p) = outcomeWithProg p (execMwm d lit s) := by
  cases hloc : s.operandLoc lit with
  | error f =>
    rw [execMwm_of_loc_error hloc, execMwm_of_loc_error (s := s.withProg p) hloc]
    rfl
  | ok l =>
    rw [execMwm_eq_next hloc, execMwm_eq_next (s := s.withProg p) hloc, State.writeLoc_withProg]
    rfl

theorem exec_withProg (i : Instr) : exec i (s.withProg p) = outcomeWithProg p (exec i s) := by
  cases i with
  | mwm dest lit => exact execMwm_withProg s p lit dest
  | sms | smc => exact execSkip_withProg s p _ _
  | mlw | gol | gow | wfi | rfi => rfl
  | _ => exact execAlu_withProg s p _ _ _

variable {s p}

theorem State.fetch_withProg (h : Memory.read p s.pc.toNat = Memory.read s.prog s.pc.toNat) :
    (s.withProg p).fetch = s.fetch := by
  simp only [State.fetch, State.withProg, h]

theorem step_withProg (h : Memory.read p s.pc.toNat = Memory.read s.prog s.pc.toNat) :
    step (s.withProg p) = outcomeWithProg p (step s) := by
  cases hev : s.event with
  | some e =>
    rw [step_of_event hev, step_of_event (s := s.withProg p) hev]
    rfl
  | none =>
    cases hwait : s.waiting with
    | true =>
      rw [step_of_waiting hev hwait, step_of_waiting (s := s.withProg p) hev hwait]
      rfl
    | false =>
      have hfetch' := State.fetch_withProg h
      cases hfetch : s.fetch with
      | error f =>
        rw [step_of_fetch_error hev hwait hfetch,
          step_of_fetch_error (s := s.withProg p) hev hwait (hfetch'.trans hfetch)]
        rfl
      | ok w =>
        rw [step_of_fetch_ok hev hwait hfetch,
          step_of_fetch_ok (s := s.withProg p) hev hwait (hfetch'.trans hfetch)]
        exact exec_withProg s.passBoundary p (decode w)

end Sys2Proof.Machine

namespace Sys2Proof

open Sys2Proof.Machine

/-- Settles O12: with the same word at pc, the step's outcome is the same but for program memory itself. -/
theorem stepDependsOnFetchedWordOnly : Obligations.StepDependsOnFetchedWordOnly := by
  intro s p hread
  have hstep := step_withProg hread
  refine ⟨fun t ht => hstep.trans ?_, fun f hf => hstep.trans ?_⟩
  · rw [ht]
    rfl
  · rw [hf]
    rfl

end Sys2Proof
end

section
/-! PROOFS. The program counter: skips, jumps, the interrupt pair, and the sum that wraps (10_state.md R27; 45_skips.md
R180, R181; 46_jumps.md R190, R191; 47_interrupt_instr.md R200, R201). -/

namespace Sys2Proof.Machine

variable {s : State} {lit : Lit} {l : Loc} {m : Word}

/-- sms goes on by 1 at a zero operand and by 2 at any other (R180). -/
theorem State.advanceSkip_pcZero (s : State) (m : Word) :
    s.advanceSkip (aluSkip .pcZero m) = s.jumpSum s.pc (if m = 0#16 then 1 else 2) := by
  by_cases hm : m = 0#16 <;> simp [State.advanceSkip, aluSkip, zeroOf, hm]

/-- smc goes on by 2 at a zero operand and by 1 at any other (R181). -/
theorem State.advanceSkip_pcZerobar (s : State) (m : Word) :
    s.advanceSkip (aluSkip .pcZerobar m) = s.jumpSum s.pc (if m = 0#16 then 2 else 1) := by
  by_cases hm : m = 0#16 <;> simp [State.advanceSkip, aluSkip, zeroOf, hm]

theorem exec_sms_next {d : DestBit} (hloc : s.operandLoc lit = .ok l) (hread : s.readLoc l = some m) :
    exec (.sms d lit) s = .next (s.jumpSum s.pc (if m = 0#16 then 1 else 2)) :=
  (execSkip_eq_next (State.dataRead_of_ok hloc hread)).trans (by rw [State.advanceSkip_pcZero])

theorem exec_smc_next {d : DestBit} (hloc : s.operandLoc lit = .ok l) (hread : s.readLoc l = some m) :
    exec (.smc d lit) s = .next (s.jumpSum s.pc (if m = 0#16 then 2 else 1)) :=
  (execSkip_eq_next (State.dataRead_of_ok hloc hread)).trans (by rw [State.advanceSkip_pcZerobar])

theorem toNat_jumpTarget (lit : Lit) : (jumpTarget lit).toNat = lit.toNat := toNat_dataAddr lit

/-- A sum of at most 2 ends below its base exactly when it wraps: the converse of `pcSum_wraps`. -/
theorem pcSum_lt_base_iff (b : Word) {n : Nat} (h : n ≤ 2) :
    (b + BitVec.ofNat 16 n).toNat < b.toNat ↔ 0x10000 ≤ b.toNat + n := by
  refine ⟨fun hlt => ?_, fun hwrap => (pcSum_wraps b n h hwrap).2⟩
  simp only [BitVec.toNat_add, BitVec.toNat_ofNat] at hlt
  omega

end Sys2Proof.Machine

namespace Sys2Proof

open Sys2Proof.Machine

variable {i : Instr} {s t : State} {b : Word}

/-- An instruction whose pc is a sum notes a wrap exactly when the new pc is below the base and PROG_WORDS is below
65536 (R27, D21). -/
theorem exec_pcPastTop_iff (h : exec i s = .next t) (hbase : i.pcBase s = some b) :
    t.pcPastTop = true ↔ t.pc.toNat < b.toNat ∧ s.cfg.progWords < 0x10000 := by
  have hpc := exec_pc h
  rw [hbase] at hpc
  obtain ⟨n, -, hn, hsum, htop⟩ := hpc
  rw [htop, s.sumPastTop_iff, hsum, pcSum_lt_base_iff b hn]

theorem exec_pcPastTop_of_no_sum (h : exec i s = .next t) (hbase : i.pcBase s = none) (hwfi : i.isWfi = false) :
    t.pcPastTop = false := by
  have hpc := exec_pc h
  rw [hbase] at hpc
  simpa [hwfi] using hpc

/-- Settles O35: the wrap by the note it leaves, and the new pc instruction by instruction, the sixteen forms of the ALU
template in one case. -/
theorem pcAdvances : Obligations.PcAdvances := by
  refine ⟨fun i s t b h hbase => ⟨fun hlt hsize hev hrun => ?_, fun hno => ?_⟩,
    fun i s t h hbase hwfi => exec_pcPastTop_of_no_sum h hbase hwfi, fun i s t h => ?_⟩
  · have htop := (exec_pcPastTop_iff h hbase).mpr ⟨hlt, hsize⟩
    exact step_of_fetch_error hev hrun (State.fetch_outOfRange.mpr (.inr htop))
  · refine Bool.eq_false_iff.mpr fun htop => ?_
    obtain ⟨hlt, hsize⟩ := (exec_pcPastTop_iff h hbase).mp htop
    omega
  · cases i with
    | mwm dest lit => obtain ⟨l, -, rfl⟩ := execMwm_next (dest := dest) h; simp
    | sms =>
      obtain ⟨m, hm, rfl⟩ := execSkip_next h
      refine ⟨m, hm, ?_⟩
      rw [State.advanceSkip_pcZero]
      split <;> rfl
    | smc =>
      obtain ⟨m, hm, rfl⟩ := execSkip_next h
      refine ⟨m, hm, ?_⟩
      rw [State.advanceSkip_pcZerobar]
      split <;> rfl
    | gol dest lit => cases h; exact toNat_jumpTarget lit
    | mlw | gow | wfi | rfi => cases h; rfl
    | _ => obtain ⟨l, m, -, -, -, rfl⟩ := execAlu_next h; exact State.aluEffect_pc _ _ _ _ _

/-- Settles O46: the two skips as sums on pc. -/
theorem exactlyOneSkipSkips : Obligations.ExactlyOneSkipSkips := by
  intro s d e lit l m hloc hread
  refine ⟨(exec_sms_next hloc hread).trans ?_, (exec_smc_next hloc hread).trans ?_⟩ <;> split <;> rfl

/-- Settles O47: `jump` at the literal and at W. -/
theorem jumpsChangeOnlyPc : Obligations.JumpsChangeOnlyPc :=
  fun _ _ lit => ⟨⟨jumpTarget lit, toNat_jumpTarget lit, rfl⟩, rfl⟩

/-- Settles O48: `beginWait` writes these two fields. -/
theorem wfiSavesPcAndWaits : Obligations.WfiSavesPcAndWaits :=
  fun _ _ _ => rfl

/-- Settles O49: `returnFromInterrupt` is a sum of 2 on spc. -/
theorem rfiReturnsTwoPastSavedPc : Obligations.RfiReturnsTwoPastSavedPc :=
  fun s _ _ => ⟨s.returnFromInterrupt, rfl, BitVec.toNat_add s.spc 2, rfl, rfl⟩

end Sys2Proof
end

section
/-! PROOFS. The moves, the logic instructions to the operand and the subtraction (41_moves.md R140 to R143; 43_logic.md
R160 to R162; 44_arith.md R171). -/

namespace Sys2Proof.Machine

variable {op : AluOp} {s : State} {l : Loc} {m : Word}

/-- Storing the value a location holds leaves W, Carry, INDA and every RAM word as they are (R141). -/
theorem State.writeLoc_held_value (h : s.readLoc l = some m) :
    (s.writeLoc l m).w = s.w ∧ (s.writeLoc l m).carry = s.carry ∧ (s.writeLoc l m).inda = s.inda ∧
      ∀ a, Memory.read (s.writeLoc l m).ram a = Memory.read s.ram a := by
  cases l with
  | ram b =>
    refine ⟨rfl, rfl, rfl, fun a => ?_⟩
    by_cases ha : a = b.toNat
    · subst ha
      exact (Memory.read_write_same _ _ _).trans h.symm
    · exact Memory.read_write_ne _ _ ha
  | carry =>
    cases h
    refine ⟨rfl, ?_, rfl, fun _ => rfl⟩
    cases hc : s.carry <;> simp [flagWord]
  | wreg | zero | inda => cases h; exact ⟨rfl, rfl, rfl, fun _ => rfl⟩

/-- An operation that does not list Carry has two writers only at the Zero flag (R68). -/
theorem writesAffectedFlag_toM_zeroOnly (hcarry : op.affectsCarry = false) (hlz : l ≠ .zero) :
    writesAffectedFlag op .toM l = false := by
  cases l with
  | zero => exact absurd rfl hlz
  | carry => exact hcarry
  | ram | wreg | inda => rfl

/-! ### Result, Carry and Zero of Sub as numbers -/

section Sub

variable (w m : Word) (c : Bool)

/-- R115: the result is the difference modulo 2^16. -/
theorem aluResult_sub_toNat : (aluResult .sub w m c).toNat = (m.toNat + (0x10000 - w.toNat)) % 0x10000 := by
  rw [Nat.add_comm]
  exact BitVec.toNat_sub m w

/-- R115, D11: Carry is the inverted borrow. -/
theorem aluCarry_sub : aluCarry .sub w m c = decide (w.toNat ≤ m.toNat) := rfl

/-- R115: a difference is 0 exactly for equal operands. -/
theorem zeroOf_aluResult_sub : zeroOf (aluResult .sub w m c) = decide (m = w) :=
  decide_eq_decide.mpr sub_eq_zero

end Sub

end Sys2Proof.Machine

namespace Sys2Proof

open Sys2Proof.Machine

section ZeroOnly

/- An operation that lists Zero alone, whose operand is read. -/
variable {op : AluOp} {s : State} {lit : Lit} {l : Loc} {m : Word}
  (hcarry : op.affectsCarry = false) (hzero : op.affectsZero = true)
  (hloc : s.operandLoc lit = .ok l) (hread : s.readLoc l = some m)
include hcarry hzero hloc hread

/-- Carry is changed by the store alone, so only where it is the location stored to. -/
theorem execAlu_toM_zeroOnly (hlz : l ≠ .zero) :
    ∃ t, execAlu op .toM lit s = .next t ∧ t.zero = zeroOf (aluResult op s.w m s.carry) ∧ t.pc = s.pc + 1 ∧
      (l = .carry → t.carry = (aluResult op s.w m s.carry).getLsbD 0) ∧
      (l ≠ .carry → t.readLoc l = some (aluResult op s.w m s.carry) ∧ t.carry = s.carry) := by
  have hc : (s.aluEffect op .toM l m).carry =
      if l = .carry then (aluResult op s.w m s.carry).getLsbD 0 else s.carry := by
    simp [State.aluEffect_toM, hcarry]
  refine ⟨_, execAlu_eq_next hloc hread (writesAffectedFlag_toM_zeroOnly hcarry hlz), ?_, by simp,
    fun hlc => hc.trans (if_pos hlc), fun hlc => ⟨State.readLoc_aluEffect_toM hlc hlz, hc.trans (if_neg hlc)⟩⟩
  simp [State.aluEffect_toM, hzero]

end ZeroOnly

/-- Settles O36: the Dest = 0 form of the zero test, whose result is the operand. -/
theorem moveToWTestsForZero : Obligations.MoveToWTestsForZero := by
  intro s lit l m hloc hread
  refine (execAlu_eq_next hloc hread (writesAffectedFlag_toW .zeroTest l)).trans ?_
  rw [State.aluEffect_toW]
  rfl

/-- Settles O37: the Dest = 1 form of the zero test stores the value its location holds. -/
theorem moveToSelfOnlyTestsForZero : Obligations.MoveToSelfOnlyTestsForZero := by
  intro s lit l m hloc hread hlz
  obtain ⟨hw, hcarry, hinda, hram⟩ := State.writeLoc_held_value hread
  refine ⟨_, execAlu_eq_next hloc hread (writesAffectedFlag_toM_zeroOnly (op := .zeroTest) rfl hlz), ?_⟩
  rw [State.aluEffect_toM]
  exact ⟨rfl, hw, hcarry, hinda, rfl, hram⟩

/-- Settles O38: a store of W, which leaves W even at its own address. -/
theorem moveWToMemStores : Obligations.MoveWToMemStores := by
  intro s d lit l hloc
  refine ⟨_, execMwm_eq_next (d := d) hloc, by simp, by simp, fun hl => by simp [hl], fun hl => by simp [hl],
    fun hlc hlz => ?_⟩
  calc ((s.writeLoc l s.w).advance).readLoc l
      = (s.writeLoc l s.w).readLoc l := rfl
    _ = some s.w := by simp [State.readLoc_writeLoc, hlc, hlz]

/-- Settles O39: sign extension keeps the signed value. -/
theorem literalLoadsSigned : Obligations.LiteralLoadsSigned :=
  fun _ _ _ => ⟨_, rfl, BitVec.toInt_signExtend_of_le (by decide), rfl, rfl, rfl⟩

/-- Settles O43: AND, OR and XOR are operations that list Zero alone. -/
theorem logicToOperand : Obligations.LogicToOperand := by
  intro s lit l m hloc hread hlz
  simp only [List.forall_mem_cons]
  exact ⟨execAlu_toM_zeroOnly (op := .and) rfl rfl hloc hread hlz,
    execAlu_toM_zeroOnly (op := .or) rfl rfl hloc hread hlz,
    execAlu_toM_zeroOnly (op := .xor) rfl rfl hloc hread hlz, List.forall_mem_nil _⟩

/-- Settles O45: both forms hand on the Sub of the ALU, whose result and flags R115 gives as numbers. -/
theorem subGivesDifferenceBorrowZero : Obligations.SubGivesDifferenceBorrowZero := by
  intro s lit l m hloc hread
  refine ⟨?_, fun hlc hlz => ?_⟩
  · obtain ⟨t, hnext, hw, hc, hz⟩ := execAlu_toW_carryZero (op := .sub) rfl rfl hloc hread
    exact ⟨t, hnext, hw ▸ aluResult_sub_toNat _ _ _, hc.trans (aluCarry_sub _ _ _),
      hz.trans (zeroOf_aluResult_sub _ _ _)⟩
  · obtain ⟨t, hnext, hr, hc, hz⟩ := execAlu_toM_carryZero (op := .sub) rfl rfl hloc hread hlc hlz
    exact ⟨t, _, hnext, hr, aluResult_sub_toNat _ _ _, hc.trans (aluCarry_sub _ _ _),
      hz.trans (zeroOf_aluResult_sub _ _ _)⟩

/-- At W's own address the two Dest forms of the ALU template have one effect, and complete (R128, D8). -/
theorem execAlu_wreg (op : AluOp) (s : State) :
    execAlu op .toW 0x200#11 s = execAlu op .toM 0x200#11 s ∧ ∃ t, execAlu op .toW 0x200#11 s = .next t := by
  have hloc : s.operandLoc 0x200#11 = .ok .wreg := s.resolve_wreg
  have hread : s.readLoc .wreg = some s.w := rfl
  have hW := execAlu_eq_next hloc hread (writesAffectedFlag_toW op .wreg)
  have hM := execAlu_eq_next hloc hread (writesAffectedFlag_toM_noFlag op nofun nofun)
  exact ⟨hW.trans hM.symm, _, hW⟩

/-- Settles O54: eight instances of the ALU template. -/
theorem bothDestFormsAgreeOnW : Obligations.BothDestFormsAgreeOnW := by
  intro s
  simp only [List.forall_mem_cons]
  exact ⟨execAlu_wreg .zeroTest s, execAlu_wreg .rotL s, execAlu_wreg .rotR s, execAlu_wreg .and s,
    execAlu_wreg .or s, execAlu_wreg .xor s, execAlu_wreg .add s, execAlu_wreg .sub s, List.forall_mem_nil _⟩

end Sys2Proof
end

section
/-! PROOFS. Instructions together: repeated and opposite rotates, a comparison and its skips, and the Indv window as
operand (20_memory.md R55; 40_alu_datapath.md R112, R113, R128; 42_rotates.md R150; 45_skips.md R182). -/

namespace Sys2Proof.Machine

/-! ### Rotates of 17 bits -/

theorem rotateLeft_rotateLeft_one (x : BitVec 17) (n : Nat) :
    (x.rotateLeft 1).rotateLeft n = x.rotateLeft (n + 1) := by
  refine BitVec.eq_of_getElem_eq fun i hi => ?_
  simp only [BitVec.getElem_rotateLeft]
  split_ifs <;> congr 1 <;> omega

theorem rotateLeft_zero (x : BitVec 17) : x.rotateLeft 0 = x :=
  BitVec.eq_of_getElem_eq fun i hi => by simp [BitVec.getElem_rotateLeft]

/-- Seventeen bits rotated by seventeen places are as they were. -/
theorem rotateLeft_seventeen (x : BitVec 17) : x.rotateLeft 17 = x :=
  calc x.rotateLeft 17
      = x.rotateLeft (17 % 17) := BitVec.rotateLeft_mod_eq_rotateLeft.symm
    _ = x := rotateLeft_zero x

theorem rotateRight_one_rotateLeft_one_cons (c : Bool) (m : Word) :
    ((BitVec.cons c m).rotateLeft 1).rotateRight 1 = BitVec.cons c m := by
  rw [rotateLeft_one_cons, rotateRight_one_concat]

/-- Carry and word are read back from the 17 bits they make. -/
theorem cons_injective {b c : Bool} {x y : Word} (h : BitVec.cons b x = BitVec.cons c y) : b = c ∧ x = y :=
  ⟨by simpa using congrArg BitVec.msb h, by simpa using congrArg (BitVec.setWidth 16) h⟩

/-! ### Operands in RAM -/

variable {s : State} {lit : Lit} {a : BitVec 9} {m : Word}

/-- A literal in the RAM range names the same RAM word in every state (R51, R67). -/
theorem operandLoc_ram (h : lit.toNat ≤ 0x1FF) :
    ∃ a : BitVec 9, a.toNat = lit.toNat ∧ ∀ s : State, s.operandLoc lit = .ok (.ram a) := by
  have hle : (dataAddr lit).toNat ≤ 0x1FF := by simpa using h
  exact ⟨(dataAddr lit).setWidth 9, (toNat_ramKey hle).trans (toNat_dataAddr lit),
    fun s => s.resolve_ram (dataAddr lit) hle⟩

/-- With INDA in RAM, the operand 0x203 is RAM[INDA] (R55). -/
theorem State.operandLoc_indv (h : s.inda.toNat ≤ 0x1FF) :
    s.operandLoc 0x203#11 = .ok (.ram (s.inda.setWidth 9)) :=
  s.indTarget_ram h

/-- A Dest = 1 form on a RAM word: the word takes the result, the listed flags are loaded, W and INDA stay (R124). -/
theorem execAlu_toM_ram (op : AluOp) (hloc : s.operandLoc lit = .ok (.ram a))
    (hread : Memory.read s.ram a.toNat = some m) :
    ∃ t, execAlu op .toM lit s = .next t ∧ Memory.read t.ram a.toNat = some (aluResult op s.w m s.carry) ∧
      t.carry = (if op.affectsCarry then aluCarry op s.w m s.carry else s.carry) ∧
      t.zero = (if op.affectsZero then zeroOf (aluResult op s.w m s.carry) else s.zero) ∧
      t.w = s.w ∧ t.inda = s.inda := by
  refine ⟨_, execAlu_eq_next hloc hread (writesAffectedFlag_toM_noFlag op nofun nofun), ?_⟩
  simp [State.aluEffect_toM]

end Sys2Proof.Machine

namespace Sys2Proof

open Sys2Proof.Machine

variable {s : State} {lit : Lit} {a : BitVec 9} {m : Word}

/-! ### Rotates of a RAM word -/

/-- One left rotate of a RAM word (R112): Carry and the word as 17 bits, W and Zero as they were. -/
theorem exec_rlmM_ram (hloc : s.operandLoc lit = .ok (.ram a)) (hread : Memory.read s.ram a.toNat = some m) :
    ∃ t r, exec (.rlmM lit) s = .next t ∧ Memory.read t.ram a.toNat = some r ∧
      BitVec.cons t.carry r = (BitVec.cons s.carry m).rotateLeft 1 ∧ t.w = s.w ∧ t.zero = s.zero := by
  obtain ⟨t, hnext, hr, hcarry, hzero, hw, -⟩ := execAlu_toM_ram .rotL hloc hread
  refine ⟨t, _, hnext, hr, ?_, hw, hzero⟩
  rw [hcarry]
  exact cons_aluCarry_aluResult_rotL s.w m s.carry

/-- One right rotate of a RAM word (R113). -/
theorem exec_rrmM_ram (hloc : s.operandLoc lit = .ok (.ram a)) (hread : Memory.read s.ram a.toNat = some m) :
    ∃ t r, exec (.rrmM lit) s = .next t ∧ Memory.read t.ram a.toNat = some r ∧
      BitVec.cons t.carry r = (BitVec.cons s.carry m).rotateRight 1 := by
  obtain ⟨t, hnext, hr, hcarry, -⟩ := execAlu_toM_ram .rotR hloc hread
  refine ⟨t, _, hnext, hr, ?_⟩
  rw [hcarry]
  exact cons_aluCarry_aluResult_rotR s.w m s.carry

/-- `n` left rotates of a RAM word rotate Carry and the word by `n` places (R150). -/
theorem execTimes_rlmM_ram (n : Nat) (hloc : ∀ s : State, s.operandLoc lit = .ok (.ram a))
    (hread : Memory.read s.ram a.toNat = some m) :
    ∃ t r, execTimes n (.rlmM lit) s = .next t ∧ Memory.read t.ram a.toNat = some r ∧
      BitVec.cons t.carry r = (BitVec.cons s.carry m).rotateLeft n ∧ t.w = s.w ∧ t.zero = s.zero := by
  induction n generalizing s m with
  | zero => exact ⟨s, m, rfl, hread, (rotateLeft_zero _).symm, rfl, rfl⟩
  | succ n ih =>
    obtain ⟨u, q, hexec, hq, hcons, hw, hzero⟩ := exec_rlmM_ram (hloc s) hread
    obtain ⟨t, r, htimes, hr, hcons', hw', hzero'⟩ := ih hq
    refine ⟨t, r, ?_, hr, ?_, hw'.trans hw, hzero'.trans hzero⟩
    · simpa only [execTimes, hexec] using htimes
    · rw [hcons', hcons, rotateLeft_rotateLeft_one]

/-- Settles O50: seventeen places are one whole turn of the 17 bits. -/
theorem seventeenLeftRotatesRestore : Obligations.SeventeenLeftRotatesRestore := by
  intro s lit m hlit hread
  obtain ⟨a, ha, hloc⟩ := operandLoc_ram hlit
  rw [← ha] at hread ⊢
  obtain ⟨t, r, htimes, hr, hcons, hw, hzero⟩ := execTimes_rlmM_ram 17 hloc hread
  rw [rotateLeft_seventeen] at hcons
  obtain ⟨hcarry, rfl⟩ := cons_injective hcons
  exact ⟨t, htimes, hr, hcarry, hw, hzero⟩

/-- Settles O51: a left and a right turn of the 17 bits by one place. -/
theorem rightRotateUndoesLeft : Obligations.RightRotateUndoesLeft := by
  intro s lit m hlit hread
  obtain ⟨a, ha, hloc⟩ := operandLoc_ram hlit
  rw [← ha] at hread ⊢
  obtain ⟨t, q, hleft, hq, hcons, -, -⟩ := exec_rlmM_ram (hloc s) hread
  obtain ⟨u, r, hright, hr, hcons'⟩ := exec_rrmM_ram (hloc t) hq
  rw [hcons, rotateRight_one_rotateLeft_one_cons] at hcons'
  obtain ⟨hcarry, rfl⟩ := cons_injective hcons'
  exact ⟨t, u, hleft, hright, hr, hcarry⟩

/-! ### Skips on a flag -/

/-- sms on a flag skips exactly when it is set, smc exactly when it is clear (R182). -/
theorem exec_skips_of_flag {p : Prop} [Decidable p] {l : Loc} (d : DestBit) (hloc : s.operandLoc lit = .ok l)
    (hread : s.readLoc l = some (flagWord (decide p))) :
    exec (.sms d lit) s = .next { s with
        pc := s.pc + (if p then 2 else 1), pcPastTop := s.sumPastTop s.pc (if p then 2 else 1) } ∧
      exec (.smc d lit) s = .next { s with
        pc := s.pc + (if p then 1 else 2), pcPastTop := s.sumPastTop s.pc (if p then 1 else 2) } := by
  rw [exec_sms_next hloc hread, exec_smc_next hloc hread]
  by_cases hp : p <;> simp [hp, flagWord, State.jumpSum]

/-- Settles O52: sub leaves the two comparisons in Zero and Carry, and each skip tests one flag. -/
theorem skipsAfterSubCompareUnsigned : Obligations.SkipsAfterSubCompareUnsigned := by
  intro s d lit l m hloc hread
  obtain ⟨t, hnext, -, hcarry, hzero⟩ := execAlu_toW_carryZero (op := .sub) rfl rfl hloc hread
  rw [aluCarry_sub] at hcarry
  rw [zeroOf_aluResult_sub] at hzero
  have hreadZ : t.readLoc .zero = some (flagWord (decide (m = s.w))) := by rw [← hzero]; rfl
  have hreadC : t.readLoc .carry = some (flagWord (decide (s.w.toNat ≤ m.toNat))) := by rw [← hcarry]; rfl
  obtain ⟨hsmsZ, hsmcZ⟩ := exec_skips_of_flag (lit := 0x202#11) d t.resolve_zero hreadZ
  obtain ⟨hsmsC, hsmcC⟩ := exec_skips_of_flag (lit := 0x201#11) d t.resolve_carry hreadC
  exact ⟨t, hnext, hsmsZ, hsmcZ, hsmsC, hsmcC⟩

/-! ### The Indv window as operand -/

/-- Settles O53: both instructions name the RAM word INDA points to, and neither changes INDA. -/
theorem storeThenLoadThroughIndv : Obligations.StoreThenLoadThroughIndv := by
  intro s d x hinda
  rw [← toNat_ramKey hinda]
  let t := (s.writeLoc (.ram (s.inda.setWidth 9)) s.w).advance
  have hram : Memory.read t.ram (s.inda.setWidth 9).toNat = some s.w := Memory.read_write_same _ _ _
  have hload := moveToWTestsForZero { t with w := x } 0x203#11 _ s.w (State.operandLoc_indv hinda) hram
  exact ⟨t, _, execMwm_eq_next (d := d) (State.operandLoc_indv hinda), hram, hload, rfl, rfl⟩

/-- R114: the result is the sum of two words modulo 2^16. -/
theorem aluResult_add (w m : Word) (c : Bool) : aluResult .add w m c = m + w := by
  refine BitVec.eq_of_toNat_eq ?_
  rw [aluResult_add_toNat, BitVec.toNat_add, Nat.add_comm]

/-- Settles O55: Indv names the RAM word INDA points to, 0x204 names INDA itself. -/
theorem addThroughIndvAndToInda : Obligations.AddThroughIndvAndToInda := by
  intro s m
  refine ⟨fun hinda hread => ?_, ?_⟩
  · rw [← toNat_ramKey hinda] at hread ⊢
    obtain ⟨t, hnext, hr, -, -, hw, hi⟩ := execAlu_toM_ram .add (State.operandLoc_indv hinda) hread
    exact ⟨t, hnext, hr.trans (by rw [aluResult_add]), hi, hw⟩
  · have hloc : s.operandLoc 0x204#11 = .ok .inda := s.resolve_inda
    refine ⟨_, execAlu_eq_next hloc rfl (writesAffectedFlag_toM_noFlag .add nofun nofun), ?_⟩
    rw [State.aluEffect_toM, aluResult_add]
    exact ⟨rfl, rfl, rfl⟩

end Sys2Proof
end
